-- ==== Sys2Proof/Word.lean ====
section
/-! DEFINITION. The two word types of the hardware (spec 00_scope.md R3): an 8-bit byte, the width of A, X, Y, P
and of a memory cell, and a 16-bit word, the width of PC, SP and of every address. -/

namespace Sys2Proof

/-- A byte: the width of A, X, Y, P and of a memory cell (R3). -/
abbrev Byte := BitVec 8

/-- A 16-bit word: the width of PC, SP and of every memory address (R3). -/
abbrev Word := BitVec 16

end Sys2Proof
end

