-- ==== Sys2Proof/Config.lean ====
section
/-! DEFINITION. What is fixed for the machine: the two fixed addresses (spec 00_scope.md R4) and the TYPES of the
open parameters of R5. The parameters' default values stand in Sys2Proof/Machine/Params.lean. No value of this
hardware is left free (R7: "the model needs no oracle, no scheduler and no draw"), so there is no opaque constant. -/

namespace Sys2Proof

/-- `RESET_VECTOR`: the address reset puts in PC and the first opcode's address (R4, R123; log 8). -/
def Config.RESET_VECTOR : Word := 0xFFFC

/-- `STACK_BASE`: the address reset puts in SP (R4). -/
def Config.STACK_BASE : Word := 0x0100

/-- The four opcode parameters of R5. -/
structure OpcodeParams where
  /-- `OPC_LDA_IMM`: load-accumulator, immediate. -/
  ldaImm : Byte
  /-- `OPC_LDA_ZP`: load-accumulator, zero-page. -/
  ldaZp : Byte
  /-- `OPC_LDA_ZPX`: load-accumulator, zero-page indexed by X. -/
  ldaZpX : Byte
  /-- `OPC_JSR_ABS`: jump-to-subroutine, absolute. -/
  jsrAbs : Byte
  deriving DecidableEq, Repr

/-- "The four opcode parameters must be pairwise distinct" (R5). -/
abbrev OpcodeParams.Admissible (o : OpcodeParams) : Prop :=
  o.ldaImm ≠ o.ldaZp ∧ o.ldaImm ≠ o.ldaZpX ∧ o.ldaImm ≠ o.jsrAbs ∧
    o.ldaZp ≠ o.ldaZpX ∧ o.ldaZp ≠ o.jsrAbs ∧ o.ldaZpX ≠ o.jsrAbs

/-- A known opcode: "a byte equal to one of the four opcode parameters" (R9). -/
def OpcodeParams.isKnown (o : OpcodeParams) (op : Byte) : Bool :=
  op == o.ldaImm || op == o.ldaZp || op == o.ldaZpX || op == o.jsrAbs

/-- The two flag-position parameters of R5: bit indices in P. -/
structure FlagBits where
  /-- `ZERO_BIT`: bit index of the Zero flag. -/
  zeroBit : Fin 8
  /-- `NEG_BIT`: bit index of the Negative flag. -/
  negBit : Fin 8
  deriving DecidableEq, Repr

/-- "`ZERO_BIT` must differ from `NEG_BIT`" (R5). -/
abbrev FlagBits.Admissible (f : FlagBits) : Prop := f.zeroBit ≠ f.negBit

/-- A choice of all the open parameters of R5, which the parametric machine takes as an argument (92_eei_decisions.md
D1 and D2, `OPEN`). -/
structure Params where
  /-- The four opcode bytes. -/
  opcodes : OpcodeParams
  /-- The two flag positions. -/
  flagBits : FlagBits
  deriving DecidableEq, Repr

/-- The choices R5 allows. -/
abbrev Params.Admissible (c : Params) : Prop := c.opcodes.Admissible ∧ c.flagBits.Admissible

end Sys2Proof
end

