-- ==== Sys2Proof/Machine/Alu.lean ====
section
/-! DEFINITION. The ALU: the arithmetic and routing operations of spec 40_engine.md R76, which gives their complete
list (PASS_ZN, the one that writes flags, stands in Machine/Flags.lean). All are modular in their width and none
produces or takes a carry (R77). The reductions are the spec's decisions D5 and D6 (logs 5 and 6). -/

namespace Sys2Proof.Machine

/-- `ADD8`: `(a + b) mod 256`, carry out discarded (R76). -/
def add8 (a b : Byte) : Byte := a + b

/-- `INC16`: `(w + 1) mod 65536` (R76). -/
def inc16 (w : Word) : Word := w + 1

/-- `ADD16_2`: `(w + 2) mod 65536` (R76). -/
def addTwo16 (w : Word) : Word := w + 2

/-- `DEC16`: `(w - 1) mod 65536`, so 0x0000 gives 0xFFFF (R76). -/
def dec16 (w : Word) : Word := w - 1

/-- `ZEXT`: `zext_16(b)`, the upper byte zero (R76, 00_scope.md section 6). -/
def zext16 (b : Byte) : Word := b.setWidth 16

/-- `CAT`: `hi:lo`, the left operand the more significant, `hi * 256 + lo` (R76, 00_scope.md section 6). -/
def cat (hi lo : Byte) : Word := BitVec.ofNat 16 (hi.toNat * 256 + lo.toNat)

/-- `SPLIT`, upper half: `w[15:8]` (R76). -/
def highByte (w : Word) : Byte := w.extractLsb' 8 8

/-- `SPLIT`, lower half: `w[7:0]` (R76). -/
def lowByte (w : Word) : Byte := w.extractLsb' 0 8

end Sys2Proof.Machine
end

