-- ==== Sys2Proof/Machine/Params.lean ====
section
/-! DEFINITION. The values this machine takes for the open parameters of spec 00_scope.md R5. PRESUMED (logs 1 and 2):
the spec gives them as defaults "from general knowledge, not in source". -/

namespace Sys2Proof.Machine

/-- The opcode bytes: R5's defaults 0xA9, 0xA5, 0xB5 and 0x20. PRESUMED, unsafe (log 1). -/
def opcodes : OpcodeParams where
  ldaImm := 0xA9
  ldaZp := 0xA5
  ldaZpX := 0xB5
  jsrAbs := 0x20

/-- The positions of Zero and Negative in P: R5's defaults 1 and 7. PRESUMED, unsafe (log 2). -/
def flagBits : FlagBits where
  zeroBit := 1
  negBit := 7

/-- R5's defaults together: the choice at which `exec`, `step`, `execute`, `hostOp` and `core` are the instances of the
parametric machine (log 19). -/
def params : Params where
  opcodes := opcodes
  flagBits := flagBits

end Sys2Proof.Machine
end

