-- ==== Sys2Proof/Syntax.lean ====
section
/-! DEFINITION. The instructions: one constructor per row of spec/opcode_table.json (spec 30_encoding.md R53, and the
catch-all row of 60_exceptions.md R100). Operands are already assembled (R52). -/

namespace Sys2Proof

/-- An instruction of the rusty_6502 subset (R2: these and no others). -/
inductive Instr where
  /-- `LDA #imm8`: load-accumulator, immediate addressing (R90). -/
  | ldaImm (imm : Byte)
  /-- `LDA zp8`: load-accumulator, zero-page addressing (R91). -/
  | ldaZp (zp : Byte)
  /-- `LDA zp8,X`: load-accumulator, zero-page-indexed-by-X addressing (R92). -/
  | ldaZpX (zp : Byte)
  /-- `JSR abs16`: jump-to-subroutine, absolute addressing (R95). -/
  | jsrAbs (target : Word)
  /-- The unknown-opcode step: any byte that is not one of the four known opcodes (R55, R100). -/
  | unknown (op : Byte)
  deriving DecidableEq, Repr

/-- Length in bytes, the opcode included (R50, R54). -/
def Instr.length : Instr → Nat
  | .ldaImm _ => 2
  | .ldaZp _ => 2
  | .ldaZpX _ => 2
  | .jsrAbs _ => 3
  | .unknown _ => 1

end Sys2Proof
end

