-- ==== Sys2Proof/WellFormed.lean ====
section
/-! DEFINITION. Which instructions the encoding admits: every operand byte and every target is legal (spec
30_encoding.md R52, 42_jump_to_subroutine.md R96), and an unknown opcode is a byte that is none of the four known
ones (R55). -/

namespace Sys2Proof

/-- Well-formedness under a choice of the opcode parameters. -/
def Instr.wellFormedWith (o : OpcodeParams) : Instr → Bool
  | .ldaImm _ => true
  | .ldaZp _ => true
  | .ldaZpX _ => true
  | .jsrAbs _ => true
  | .unknown op => !o.isKnown op

/-- Well-formedness under the machine's parameters. -/
def Instr.wellFormed (i : Instr) : Bool := i.wellFormedWith Machine.opcodes

end Sys2Proof
end

