-- ==== Sys2Proof/Decode.lean ====
section
/-! DEFINITION. Decoding and encoding (spec 30_encoding.md R50 to R57). The opcode map is written once, as
`decodeAtWith`, over a function that gives the instruction's bytes; the decoder of byte lists and the machine's fetch
both use it. Every definition takes the opcode parameters of R5, and a short name fixes them to the machine's. -/

namespace Sys2Proof

/-- The length the opcode byte dictates: 2 for the three loads, 3 for JSR, 1 for every other value (R54). -/
def lengthOfWith (o : OpcodeParams) (op : Byte) : Nat :=
  if op = o.ldaImm then 2
  else if op = o.ldaZp then 2
  else if op = o.ldaZpX then 2
  else if op = o.jsrAbs then 3
  else 1

/-- The instruction whose byte number `k` is `byteAt k`: the whole opcode byte is compared with the four parameters
(R51) and the operand is assembled low byte first (R52). Total: every opcode byte selects an arm (R55). -/
def decodeAtWith (o : OpcodeParams) (byteAt : Nat → Byte) : Instr :=
  if byteAt 0 = o.ldaImm then .ldaImm (byteAt 1)
  else if byteAt 0 = o.ldaZp then .ldaZp (byteAt 1)
  else if byteAt 0 = o.ldaZpX then .ldaZpX (byteAt 1)
  else if byteAt 0 = o.jsrAbs then .jsrAbs (Machine.cat (byteAt 2) (byteAt 1))
  else .unknown (byteAt 0)

/-- Why a list of bytes holds no whole instruction. No opcode byte is refused: only a list that ends too early is. -/
inductive DecodeError where
  /-- The list is empty: there is no opcode byte. -/
  | empty
  /-- The list ends inside the instruction that `op` begins, which is `need` bytes long (R54). -/
  | truncated (op : Byte) (need : Nat)
  deriving DecidableEq, Repr

/-- What decoding a list of bytes answers. -/
inductive Decoded where
  /-- The first instruction of the list and the bytes after it. -/
  | instr (i : Instr) (rest : List Byte)
  /-- No whole instruction stands there. -/
  | rejected (e : DecodeError)
  deriving DecidableEq, Repr

/-- Decode the first instruction of a list of bytes, total on any list. -/
def decodeWith (o : OpcodeParams) : List Byte → Decoded
  | [] => .rejected .empty
  | op :: tail =>
    if tail.length + 1 < lengthOfWith o op then .rejected (.truncated op (lengthOfWith o op))
    else .instr (decodeAtWith o fun k => (op :: tail).getD k 0) ((op :: tail).drop (lengthOfWith o op))

/-- The bytes of an instruction, in increasing address order (R50, R53). -/
def encodeWith (o : OpcodeParams) : Instr → List Byte
  | .ldaImm imm => [o.ldaImm, imm]
  | .ldaZp zp => [o.ldaZp, zp]
  | .ldaZpX zp => [o.ldaZpX, zp]
  | .jsrAbs target => [o.jsrAbs, Machine.lowByte target, Machine.highByte target]
  | .unknown op => [op]

/-- Decoding under the machine's opcode parameters. -/
def decode (bytes : List Byte) : Decoded := decodeWith Machine.opcodes bytes

/-- Encoding under the machine's opcode parameters. -/
def encode (i : Instr) : List Byte := encodeWith Machine.opcodes i

/-- The bytes an opcode-table word stands for, first byte first: byte `k` is bits `8k+7 .. 8k`, the bits above `nbits`
are 0, and there are as many bytes as the longest instruction has (log 17). -/
def tableBytes (nbits w : Nat) : List Byte :=
  let v := w % 2 ^ nbits
  [BitVec.ofNat 8 v, BitVec.ofNat 8 (v / 2 ^ 8), BitVec.ofNat 8 (v / 2 ^ 16)]

/-- The instruction the decoder reads from an opcode-table word (log 17). -/
def decodeTableWord (nbits w : Nat) : Option Instr :=
  match decode (tableBytes nbits w) with
  | .instr i _ => some i
  | .rejected _ => none

end Sys2Proof
end

