-- ==== Sys2Proof/Machine/State.lean ====
section
/-! DEFINITION. The machine's state (spec 10_state.md): every piece of state the spec gives the machine and nothing
else (R22: "There is no other state"), as plain data; the reasons a step can stop; construction and reset. -/

namespace Sys2Proof.Machine

/-- The attached memory `M` (R23): the cells that differ from what an unlisted address reads as (0x00, R25; log 11),
as (address, byte) pairs. `Memory.wf` in Machine/Ops.lean is its one canonical form. -/
abbrev Memory := List Host.Cell

/-- A diagnostic `Diag(op, addr)`: the unknown opcode value and the address it was fetched from (R21, R100). -/
abbrev Diag := Byte × Word

/-- The architectural state (10_state.md section 1). -/
structure State where
  /-- `PC`, 16 bits: the address of the next instruction byte (R11). -/
  pc : Word
  /-- `SP`, 16 bits: the absolute address of the next push (R12; log 7). -/
  sp : Word
  /-- `A`, 8 bits: the accumulator (R13). -/
  a : Byte
  /-- `X`, 8 bits: index register X (R14). -/
  x : Byte
  /-- `Y`, 8 bits: index register Y (R15). -/
  y : Byte
  /-- `P`, 8 bits: the status flags, all eight bits kept as storage (R16, R19). -/
  p : Byte
  /-- `M`: the 64 KiB memory (R23). -/
  mem : Memory
  /-- `budget`: remaining cycle units of the current `Execute`, a signed unbounded integer (R20; log 4). -/
  budget : Int
  /-- `DIAG`: the diagnostics emitted since construction, oldest first (R21; log 10). -/
  diag : List Diag
  deriving DecidableEq, Repr

/-- The register file as the host reads it: exactly six registers (R10, R24). -/
structure RegFile where
  /-- `PC`. -/
  pc : Word
  /-- `SP`. -/
  sp : Word
  /-- `A`. -/
  a : Byte
  /-- `X`. -/
  x : Byte
  /-- `Y`. -/
  y : Byte
  /-- `P`. -/
  p : Byte
  deriving DecidableEq, Repr

/-- The six registers of a state (R24's register-file read). -/
def State.regFile (s : State) : RegFile :=
  { pc := s.pc, sp := s.sp, a := s.a, x := s.x, y := s.y, p := s.p }

/-- Why a step stops with a fault. There is no constructor: this hardware has "no synchronous exception, no fault
outcome, no stuck state and no refusal" (60_exceptions.md R104), every address exists (R39) and no access can fail
(R31, R32). -/
inductive Fault
  deriving DecidableEq, Repr

/-- Why the model gives an instruction no meaning. -/
inductive Refusal where
  /-- The instruction of the opcode table with this mnemonic has no meaning in the model yet. Raised by no arm of
  `exec`: every row of the table is modelled. Safe (it would only stop where the hardware goes on). -/
  | notModelled (mnemonic : String)
  deriving DecidableEq, Repr

/-- The outcome of a step of this machine. -/
abbrev Outcome := Host.Outcome State Fault Refusal

/-- The state after construction, before any reset: every register and cell zero (R120, R25), nothing diagnosed, and
budget 0, which R25 calls the spec's choice (log 12). -/
def State.construct : State where
  pc := 0x0000
  sp := 0x0000
  a := 0x00
  x := 0x00
  y := 0x00
  p := 0x00
  mem := []
  budget := 0
  diag := []

/-- The machine right after construction and `Reset` (R25's last column; log 13): PC at the reset vector, SP at the
stack base, the other registers and all of memory zero, budget and DIAG as construction left them (R121). -/
def State.reset : State where
  pc := Config.RESET_VECTOR
  sp := Config.STACK_BASE
  a := 0x00
  x := 0x00
  y := 0x00
  p := 0x00
  mem := []
  budget := 0
  diag := []

end Sys2Proof.Machine
end

