-- ==== Sys2Proof/Machine/Ops.lean ====
section
/-! DEFINITION. The named operations over memory and registers: the memory transactions (spec 20_memory.md R30 to R34),
the primitives that touch memory and charge units (40_engine.md R65 to R68), fetching an instruction, and the one
shared operation that reports an error condition, `emit Diag` (60_exceptions.md R100). This hardware has no exception
entry and no exception return (R104, R107), so there is no such operation here. -/

namespace Sys2Proof.Machine

/-! ### Memory -/

/-- What a cell that nothing has written reads as: 0x00, on construction and on reset (R23, R25; log 11). -/
def Memory.unlisted : Byte := 0x00

/-- The byte listed for an address, or `Memory.unlisted`. -/
def Memory.lookup : Memory → Nat → Byte
  | [], _ => Memory.unlisted
  | (k, v) :: rest, n => if k = n then v else Memory.lookup rest n

/-- Memory without any cell listed for the address. -/
def Memory.erase : Memory → Nat → Memory
  | [], _ => []
  | (k, v) :: rest, n => if k = n then Memory.erase rest n else (k, v) :: Memory.erase rest n

/-- Memory with the cell listed before the first cell of a higher address. -/
def Memory.insert : Memory → Nat → Byte → Memory
  | [], n, b => [(n, b)]
  | (k, v) :: rest, n, b =>
    if n < k then (n, b) :: (k, v) :: rest else (k, v) :: Memory.insert rest n b

/-- `MemRead(addr, 1)`: the byte `M[addr]`; pure, no cost, cannot fail (R31). -/
def Memory.read (m : Memory) (addr : Word) : Byte := Memory.lookup m addr.toNat

/-- `MemWrite(addr, 1, v)`: afterwards `M[addr] == v` and every other cell is unchanged; no cost, cannot fail (R32).
Writing what an unlisted address reads as takes the cell off the list. -/
def Memory.write (m : Memory) (addr : Word) (v : Byte) : Memory :=
  if v = Memory.unlisted then Memory.erase m addr.toNat
  else Memory.insert (Memory.erase m addr.toNat) addr.toNat v

/-- `MemClear`: every cell becomes 0x00 (R34). -/
def Memory.clear : Memory := []

/-- The canonical form of a memory: addresses strictly rising and within 64 KiB, no cell that lists what an unlisted
address reads as. -/
abbrev Memory.wf (m : Memory) : Prop :=
  m.Pairwise (fun c d => c.1 < d.1) ∧ ∀ c ∈ m, c.1 < 65536 ∧ c.2 ≠ Memory.unlisted

/-- The host's direct writes of consecutive bytes (R46), addresses modulo 65,536 (R57). -/
def Memory.writeBytes (m : Memory) : Word → List Byte → Memory
  | _, [] => m
  | addr, b :: bs => Memory.writeBytes (m.write addr b) (inc16 addr) bs

/-! ### Charging units and advancing PC -/

/-- Take units off the budget (R69). The budget is signed and may go below zero (R101; log 4). -/
def charge (units : Int) (s : State) : State := { s with budget := s.budget - units }

/-- What `FetchByte` does to the state: PC advances by 1 modulo 65,536 and 1 unit is charged (R65; log 5). -/
def advanceByte (s : State) : State := charge 1 { s with pc := inc16 s.pc }

/-- What `FetchWord` does to the state: PC advances by 2 modulo 65,536 and 2 units are charged (R66; log 5). -/
def advanceWord (s : State) : State := charge 2 { s with pc := addTwo16 s.pc }

/-! ### The primitives of 40_engine.md section 1 -/

/-- `FetchByte()` (R65). -/
def fetchByte (s : State) : Byte × State := (s.mem.read s.pc, advanceByte s)

/-- `FetchWord()`: low byte first (R66). -/
def fetchWord (s : State) : Word × State :=
  (cat (s.mem.read (inc16 s.pc)) (s.mem.read s.pc), advanceWord s)

/-- `ReadByteZP(zp)`: one read in the zero page, 1 unit, PC does not move (R67). -/
def readByteZP (zp : Byte) (s : State) : Byte × State := (s.mem.read (zext16 zp), charge 1 s)

/-- `WriteWord(addr, w)`: low byte at `addr`, then high byte at `addr + 1` modulo 65,536, 2 units (R68, R33; log 5). -/
def writeWord (addr w : Word) (s : State) : State :=
  charge 2 { s with mem := (s.mem.write addr (lowByte w)).write (inc16 addr) (highByte w) }

/-! ### The diagnostic -/

/-- `emit Diag(op, addr)`: `DIAG <- DIAG ++ [(op, addr)]` and nothing else (R100, R21; log 10). -/
def emitDiag (op : Byte) (addr : Word) (s : State) : State := { s with diag := s.diag ++ [(op, addr)] }

/-! ### Fetching an instruction -/

/-- The instruction at PC under a choice of the opcode bytes (R5): its bytes stand at PC, PC + 1 and PC + 2 modulo 65,536
(R50, R57), read from the one memory that stores change (R44). Only the bytes the opcode calls for are used (R37, R54). -/
def fetchInstrWith (o : OpcodeParams) (s : State) : Instr :=
  decodeAtWith o fun k => s.mem.read (s.pc + BitVec.ofNat 16 k)

/-- The instruction at PC under the machine's opcode bytes. -/
def fetchInstr (s : State) : Instr := fetchInstrWith opcodes s

end Sys2Proof.Machine
end

