-- ==== Sys2Proof/Machine/Operands.lean ====
section
/-! DEFINITION. The addressing-mode multiplexer (spec 40_engine.md R78, 30_encoding.md R52): for each of the four modes,
where the operand comes from and what it charges beyond fetching the operand bytes. -/

namespace Sys2Proof.Machine

/-- Immediate: the operand value is the instruction's byte itself, with no extension and no further unit (R78). -/
def operandImmediate (b : Byte) (s : State) : Byte × State := (b, s)

/-- Zero-page: `ReadByteZP(b)`, at the address `zext_16(b)` (R78). -/
def operandZeroPage (b : Byte) (s : State) : Byte × State := readByteZP b s

/-- The zero-page address of the zero-page,X mode: `(b + X) mod 256`, within the zero page by decision D6 (R78; log 6). -/
def zeroPageXAddr (b : Byte) (s : State) : Byte := add8 b s.x

/-- Zero-page,X: one fixed unit for the addition, then `ReadByteZP((b + X) mod 256)`; X is not changed (R78). -/
def operandZeroPageX (b : Byte) (s : State) : Byte × State := readByteZP (zeroPageXAddr b s) (charge 1 s)

/-- Absolute: the 16-bit operand is itself the jump target; no data is read at it (R78). -/
def operandAbsolute (w : Word) : Word := w

end Sys2Proof.Machine
end

