-- ==== Sys2Proof/Machine/Jump.lean ====
section
/-! DEFINITION. Jump-to-subroutine, the only control transfer and the only instruction that writes memory or SP (spec
42_jump_to_subroutine.md R95 to R97). -/

namespace Sys2Proof.Machine

/-- The return address JSR pushes: PC minus one, PC being the address after the three instruction bytes, so the address
of the instruction's last byte (R95). -/
def returnAddress (s : State) : Word := dec16 (advanceWord (advanceByte s)).pc

/-- `PushWord`: the word at SP and SP + 1 and then SP up by 2 (R95; log 7). -/
def pushWord (w : Word) (s : State) : State :=
  { writeWord s.sp w s with sp := addTwo16 s.sp }

/-- `JSR abs16` (R95): after the opcode and target fetches, push the return address, set PC to the target and charge
the fixed internal unit; 6 units. -/
def execJsrAbs (target : Word) (s : State) : Outcome :=
  .next (charge 1
    { pushWord (returnAddress s) (advanceWord (advanceByte s)) with pc := operandAbsolute target })

end Sys2Proof.Machine
end

