-- ==== Sys2Proof/Machine/Flags.lean ====
section
/-! DEFINITION. The status register P: its named bits (spec 10_state.md R16 to R19) and the one flag computation of this
hardware, `SetZN` (40_engine.md R74, the flag half of PASS_ZN in R76). Reset, the loads and nothing else write P. -/

namespace Sys2Proof.Machine

/-- Bit `k` of a byte replaced by `b`, the other bits kept. -/
def setBit (p : Byte) (k : Fin 8) (b : Bool) : Byte :=
  if b then p ||| (1#8 <<< k.val) else p &&& ~~~(1#8 <<< k.val)

/-- P after `SetZN(v)`: Zero is assigned `v == 0x00` and Negative is assigned `v[7]`, the other six bits are not
written (R74). Assignment, not sticky OR, is conflict C1's resolution and decision D3 (log 3). -/
def updateZN (f : FlagBits) (v p : Byte) : Byte :=
  setBit (setBit p f.zeroBit (v == 0)) f.negBit v.msb

/-- `SetZN(v)` under a choice of the flag positions (R74). -/
def setZNWith (f : FlagBits) (v : Byte) (s : State) : State := { s with p := updateZN f v s.p }

/-- `SetZN(v)` (R74). -/
def setZN (v : Byte) (s : State) : State := setZNWith flagBits v s

/-- The Zero flag `P.Z`, "`P[ZERO_BIT]`" (R17, 00_scope.md section 6), under a choice of the flag positions. -/
def State.flagZWith (f : FlagBits) (s : State) : Bool := s.p.getLsbD f.zeroBit

/-- The Negative flag `P.N`, "`P[NEG_BIT]`" (R18, 00_scope.md section 6), under a choice of the flag positions. -/
def State.flagNWith (f : FlagBits) (s : State) : Bool := s.p.getLsbD f.negBit

/-- The Zero flag `P.Z` (R17). -/
def State.flagZ (s : State) : Bool := s.flagZWith flagBits

/-- The Negative flag `P.N` (R18). -/
def State.flagN (s : State) : Bool := s.flagNWith flagBits

/-- The six positions of P that are neither Zero nor Negative (R19), under a choice of the flag positions. -/
def isReservedBitWith (f : FlagBits) (k : Fin 8) : Bool := k != f.zeroBit && k != f.negBit

/-- The six positions of P that are storage with no function: Carry 0, Interrupt-disable 2, Decimal 3, Break 4, the
unnamed bit 5 and Overflow 6 in R16's default layout (R19; PRESUMED with the layout, log 2). -/
def isReservedBit (k : Fin 8) : Bool := isReservedBitWith flagBits k

end Sys2Proof.Machine
end

