-- ==== Sys2Proof/Machine/Load.lean ====
section
/-! DEFINITION. The load-accumulator family (spec 41_load_accumulator.md R90 to R92). Each meaning starts in the state
before the opcode fetch; the decoded operand stands for the byte the handler's `FetchByte` returns, and the fetches'
effect on PC and budget is made here (log 14). -/

namespace Sys2Proof.Machine

/-- The state after the opcode fetch and the fetch of a one-byte operand (R71 and the first line of R90 to R92). -/
def afterOperandByte (s : State) : State := advanceByte (advanceByte s)

/-- The common end of the three loads: `A <- v` and `SetZN(v)` (R90 to R92, PASS_ZN of R76), under a choice of the flag
positions (R5). -/
def loadAWith (f : FlagBits) (r : Byte × State) : State := setZNWith f r.1 { r.2 with a := r.1 }

/-- `LDA #imm8` (R90) under a choice of the flag positions: 2 units. -/
def execLdaImmWith (f : FlagBits) (imm : Byte) (s : State) : Outcome :=
  .next (loadAWith f (operandImmediate imm (afterOperandByte s)))

/-- `LDA zp8` (R91) under a choice of the flag positions: 3 units. -/
def execLdaZpWith (f : FlagBits) (zp : Byte) (s : State) : Outcome :=
  .next (loadAWith f (operandZeroPage zp (afterOperandByte s)))

/-- `LDA zp8,X` (R92) under a choice of the flag positions: 4 units. -/
def execLdaZpXWith (f : FlagBits) (zp : Byte) (s : State) : Outcome :=
  .next (loadAWith f (operandZeroPageX zp (afterOperandByte s)))

/-- `LDA #imm8` (R90) at the machine's flag positions. -/
def execLdaImm (imm : Byte) (s : State) : Outcome := execLdaImmWith flagBits imm s

/-- `LDA zp8` (R91) at the machine's flag positions. -/
def execLdaZp (zp : Byte) (s : State) : Outcome := execLdaZpWith flagBits zp s

/-- `LDA zp8,X` (R92) at the machine's flag positions. -/
def execLdaZpX (zp : Byte) (s : State) : Outcome := execLdaZpXWith flagBits zp s

end Sys2Proof.Machine
end

