-- ==== Sys2Proof/Machine/Unknown.lean ====
section
/-! DEFINITION. The unknown-opcode step (spec 60_exceptions.md R100): one byte, one unit, one diagnostic; it does not
trap, halt or vector, and execution goes on at the next byte. -/

namespace Sys2Proof.Machine

/-- An unknown opcode byte `op` (R100): the opcode fetch, then `Diag(op, pc0)` with `pc0` the address the byte was fetched
from, not the advanced PC. -/
def execUnknown (op : Byte) (s : State) : Outcome := .next (emitDiag op s.pc (advanceByte s))

end Sys2Proof.Machine
end

