-- ==== Sys2Proof/Machine/Dispatch.lean ====
section
/-! DEFINITION. Dispatch: one arm per constructor of Instr, each one call of its meaning (spec 40_engine.md R71). -/

namespace Sys2Proof.Machine

/-- The effect of one whole instruction, from the state before its opcode is fetched (R71, R72; log 14). -/
def exec (i : Instr) (s : State) : Host.Outcome State Fault Refusal :=
  match i with
  | .ldaImm imm => Sys2Proof.Machine.execLdaImm imm s
  | .ldaZp zp => Sys2Proof.Machine.execLdaZp zp s
  | .ldaZpX zp => Sys2Proof.Machine.execLdaZpX zp s
  | .jsrAbs target => Sys2Proof.Machine.execJsrAbs target s
  | .unknown op => Sys2Proof.Machine.execUnknown op s

end Sys2Proof.Machine
end

