-- ==== Sys2Proof/Machine/Step.lean ====
section
/-! DEFINITION. One step of the machine: `Step()` of spec 40_engine.md R71, exactly one instruction, defined on every
state. The loop test on the budget belongs to `Execute` (R70, Machine/Execute.lean), so `step` does not read it (log 9). -/

namespace Sys2Proof.Machine

/-- `Step()`: fetch the instruction at PC and run it (R71). -/
def step (s : State) : Host.Outcome State Fault Refusal := exec (fetchInstr s) s

/-- The state with an opcode-table word's bytes stored at PC, where the next step fetches its instruction (the host's
memory writes of R46 and R124; logs 13 and 17). -/
def State.withFetchWord (s : State) (nbits w : Nat) : State :=
  { s with mem := s.mem.writeBytes s.pc (tableBytes nbits w) }

end Sys2Proof.Machine
end

