-- ==== Sys2Proof/Machine/Parametric.lean ====
section
/-! DEFINITION. The machine as a function of the open parameters of spec 00_scope.md R5 (92_eei_decisions.md D1 and D2:
parameters "the model takes as an argument"). Machine/Dispatch.lean, Step.lean and Core.lean hold the instance at R5's
defaults, which the host runs (log 19). -/

namespace Sys2Proof.Machine

/-- The effect of one whole instruction, under a choice of the parameters (R71, R72). The flag positions matter to the
three loads and to nothing else. -/
def execWith (c : Params) (i : Instr) (s : State) : Outcome :=
  match i with
  | .ldaImm imm => execLdaImmWith c.flagBits imm s
  | .ldaZp zp => execLdaZpWith c.flagBits zp s
  | .ldaZpX zp => execLdaZpXWith c.flagBits zp s
  | .jsrAbs target => execJsrAbs target s
  | .unknown op => execUnknown op s

/-- `Step()` under a choice of the parameters (R71): the opcode bytes select the instruction, nothing else reads them. -/
def stepWith (c : Params) (s : State) : Outcome := execWith c (fetchInstrWith c.opcodes s) s

/-- The machine under a choice of the parameters. Reset depends on none of them (R121). -/
def coreWith (c : Params) : Host.Core where
  State := State
  Fault := Fault
  Refusal := Refusal
  step := stepWith c
  reset := State.reset

end Sys2Proof.Machine
end

