-- ==== Sys2Proof/Machine/Pseudocode.lean ====
section
/-! DEFINITION. The spec's own pseudocode, line by line: `Step()` of spec 40_engine.md R71 and the handlers of
41_load_accumulator.md, 42_jump_to_subroutine.md and 60_exceptions.md, each fetching its operand itself from memory.
It takes the parameters of 00_scope.md R5 as arguments. `exec` does not use it: that the decoded machine takes the same
step is a statement. -/

namespace Sys2Proof.Machine.Pseudocode

/-- `LdaImm()` (R90). -/
def ldaImm (f : FlagBits) (s : State) : State :=
  let (v, s) := fetchByte s
  let s := { s with a := v }
  setZNWith f v s

/-- `LdaZp()` (R91). -/
def ldaZp (f : FlagBits) (s : State) : State :=
  let (zp, s) := fetchByte s
  let (v, s) := readByteZP zp s
  let s := { s with a := v }
  setZNWith f v s

/-- `LdaZpX()` (R92). -/
def ldaZpX (f : FlagBits) (s : State) : State :=
  let (zp, s) := fetchByte s
  let e := zp + s.x
  let s := { s with budget := s.budget - 1 }
  let (v, s) := readByteZP e s
  let s := { s with a := v }
  setZNWith f v s

/-- `JsrAbs()` (R95). -/
def jsrAbs (s : State) : State :=
  let (target, s) := fetchWord s
  let ret := s.pc - 1
  let s := writeWord s.sp ret s
  let s := { s with sp := s.sp + 2 }
  let s := { s with pc := target }
  { s with budget := s.budget - 1 }

/-- `UnknownOpcode(op, pc0)` (R100). -/
def unknownOpcode (op : Byte) (pc0 : Word) (s : State) : State := emitDiag op pc0 s

/-- `Step()` (R71). -/
def step (o : OpcodeParams) (f : FlagBits) (s : State) : State :=
  let pc0 := s.pc
  let (op, s) := fetchByte s
  if op = o.ldaImm then ldaImm f s
  else if op = o.ldaZp then ldaZp f s
  else if op = o.ldaZpX then ldaZpX f s
  else if op = o.jsrAbs then jsrAbs s
  else unknownOpcode op pc0 s

end Sys2Proof.Machine.Pseudocode
end

