-- ==== Sys2Proof/Machine/Cost.lean ====
section
/-! DEFINITION. The cycle-unit cost table of spec 70_reset_and_hazards.md R130. The meanings do not read it: they charge
unit by unit through the primitives, and the statements compare the two. -/

namespace Sys2Proof.Machine

/-- One row of R130's table, in units. -/
structure CostRow where
  /-- Units of the opcode fetch. -/
  opcodeFetch : Nat
  /-- Units of the operand fetch. -/
  operandFetch : Nat
  /-- Fixed internal units. -/
  fixed : Nat
  /-- Units of the data read. -/
  dataRead : Nat
  /-- Units of the data write. -/
  dataWrite : Nat
  deriving DecidableEq, Repr

/-- The row's total. -/
def CostRow.total (c : CostRow) : Nat :=
  c.opcodeFetch + c.operandFetch + c.fixed + c.dataRead + c.dataWrite

/-- The row of each instruction (R130); it depends on no operand value. -/
def costRow : Instr → CostRow
  | .ldaImm _ => ⟨1, 1, 0, 0, 0⟩
  | .ldaZp _ => ⟨1, 1, 0, 1, 0⟩
  | .ldaZpX _ => ⟨1, 1, 1, 1, 0⟩
  | .jsrAbs _ => ⟨1, 2, 1, 0, 2⟩
  | .unknown _ => ⟨1, 0, 0, 0, 0⟩

/-- The cost of an instruction, opcode fetch included (R130). -/
def cost (i : Instr) : Int := (costRow i).total

end Sys2Proof.Machine
end

