-- ==== Sys2Proof/Machine/Execute.lean ====
section
/-! DEFINITION. The execute loop (spec 40_engine.md R70, R73, R75), under any choice of the parameters of R5 and, by the
short names, at the machine's own. The loop is given fuel so that it is structural; fuel is the budget itself, and every
step takes at least one unit, so it never runs out before the budget does (log 18). -/

namespace Sys2Proof.Machine

/-- The loop of R70, at most `fuel` rounds: the test `budget > 0` is made only between instructions. -/
def executeLoopWith (c : Params) : Nat → State → Outcome
  | 0, s => .next s
  | fuel + 1, s =>
    if 0 < s.budget then
      match stepWith c s with
      | .next t => executeLoopWith c fuel t
      | .fault r => .fault r
      | .refused r => .refused r
    else .next s

/-- The loop of R70 from the state's own budget, until the budget is used up. -/
def runBudgetWith (c : Params) (s : State) : Outcome := executeLoopWith c s.budget.toNat s

/-- `Execute(b)`: `budget <- b`, then the loop (R70). -/
def executeWith (c : Params) (b : Int) (s : State) : Outcome := runBudgetWith c { s with budget := b }

/-- The instructions the loop executes, in order, at most `fuel` of them. -/
def executedLoopWith (c : Params) : Nat → State → List Instr
  | 0, _ => []
  | fuel + 1, s =>
    if 0 < s.budget then
      match stepWith c s with
      | .next t => fetchInstrWith c.opcodes s :: executedLoopWith c fuel t
      | .fault _ => []
      | .refused _ => []
    else []

/-- The `k` instructions that `Execute(b)` executes, in order (R73). -/
def executedWith (c : Params) (b : Int) (s : State) : List Instr :=
  executedLoopWith c b.toNat { s with budget := b }

/-- The state after running a list of instructions one after another, whatever the budget. -/
def runInstrsWith (c : Params) : List Instr → State → Outcome
  | [], s => .next s
  | i :: rest, s =>
    match execWith c i s with
    | .next t => runInstrsWith c rest t
    | .fault r => .fault r
    | .refused r => .refused r

/-- `runBudgetWith` at the machine's parameters. -/
def runBudget (s : State) : Outcome := runBudgetWith params s

/-- `Execute(b)` at the machine's parameters (R70). -/
def execute (b : Int) (s : State) : Outcome := executeWith params b s

/-- The instructions `Execute(b)` executes, at the machine's parameters (R73). -/
def executed (b : Int) (s : State) : List Instr := executedWith params b s

/-- `runInstrsWith` at the machine's parameters. -/
def runInstrs (is : List Instr) (s : State) : Outcome := runInstrsWith params is s

/-- The sum of the costs `c_1 + ... + c_k` of R73. -/
def totalCost : List Instr → Int
  | [] => 0
  | i :: rest => cost i + totalCost rest

end Sys2Proof.Machine
end

