-- ==== Sys2Proof/Machine/HostInterface.lean ====
section
/-! DEFINITION. What the host can do while the engine is idle (spec 00_scope.md R6, 10_state.md R24): reset, write memory
cells, call execute, read. Reading is plain access to the state (`State.regFile`, `Memory.read`, `budget`, `diag`). -/

namespace Sys2Proof.Machine

/-- `Reset()` (R121): PC, SP, A, X, Y and P get their constants and memory is cleared; budget and DIAG are not touched
(log 10). -/
def hostReset (s : State) : State :=
  { s with
    pc := Config.RESET_VECTOR
    sp := Config.STACK_BASE
    a := 0x00
    x := 0x00
    y := 0x00
    p := 0x00
    mem := Memory.clear }

/-- The idle host writes one memory cell, directly and at no cost (R24, R46). -/
def hostWrite (addr : Word) (v : Byte) (s : State) : State := { s with mem := s.mem.write addr v }

/-- One thing the host does that can change the state (R6, R24). The host never writes a register. -/
inductive HostOp where
  /-- `Reset` (R121). -/
  | reset
  /-- A direct write of one memory cell (R24, R46). -/
  | write (addr : Word) (v : Byte)
  /-- `Execute(b)` (R70). -/
  | execute (b : Int)
  deriving DecidableEq, Repr

/-- The state after one host operation, under a choice of the parameters of R5. -/
def hostOpWith (c : Params) (o : HostOp) (s : State) : Outcome :=
  match o with
  | .reset => .next (hostReset s)
  | .write addr v => .next (hostWrite addr v s)
  | .execute b => executeWith c b s

/-- The state after a list of host operations, in program order (R6, R75). -/
def sessionWith (c : Params) : List HostOp → State → Outcome
  | [], s => .next s
  | o :: rest, s =>
    match hostOpWith c o s with
    | .next t => sessionWith c rest t
    | .fault r => .fault r
    | .refused r => .refused r

/-- The state after one host operation, at the machine's parameters. -/
def hostOp (o : HostOp) (s : State) : Outcome := hostOpWith params o s

/-- The state after a list of host operations, at the machine's parameters. -/
def session (ops : List HostOp) (s : State) : Outcome := sessionWith params ops s

end Sys2Proof.Machine
end

