-- ==== Sys2Proof/Safety.lean ====
section
/-! DEFINITION. What counts as a safe step, a clean run and a legal state of this machine. -/

namespace Sys2Proof.Machine

/-- A step is safe when it has a next state; on this hardware every step is (spec 60_exceptions.md R104). -/
def SafeStep (s : State) : Prop := ∃ t, step s = .next t

/-- A run of `Execute(b)` from `s` to `t` that met no unknown opcode (DIAG did not grow: R104, 93_implementation_defined.md
K3) and whose budget came out exact (no underflow: K4). -/
def CleanRun (b : Int) (s t : State) : Prop :=
  execute b s = .next t ∧ t.diag = s.diag ∧ t.budget = 0

/-- The invariant of every state reached from reset by host memory writes and `Execute` calls (10_state.md R26), with the
memory in its canonical form and every diagnostic naming an unknown opcode (R100, R106), under a choice of the parameters
of R5. SP is even because it starts at 0x0100 and moves by 2 (R26). -/
structure State.InvWith (c : Params) (s : State) : Prop where
  mem_wf : s.mem.wf
  x_zero : s.x = 0
  y_zero : s.y = 0
  reserved_zero : ∀ k : Fin 8, isReservedBitWith c.flagBits k = true → s.p.getLsbD k = false
  not_zero_and_negative : ¬(s.flagZWith c.flagBits = true ∧ s.flagNWith c.flagBits = true)
  sp_even : s.sp.getLsbD 0 = false
  diag_unknown : ∀ d ∈ s.diag, c.opcodes.isKnown d.1 = false

/-- The invariant at the machine's parameters. -/
abbrev State.Inv (s : State) : Prop := s.InvWith params

/-- The whole effect of a load of the value `v` at a cost of `units`, from `s` to `t`, in the words of
41_load_accumulator.md R90 to R92, under a choice of the flag positions of R5: A is `v`; Zero and Negative are assigned
from `v` (decision D3, log 3) and the six reserved bits of P are kept; PC is up by 2 modulo 65,536 (decision D5, log 5);
SP, X, Y, every byte of memory and DIAG are unchanged. -/
structure LoadEffectWith (f : FlagBits) (v : Byte) (units : Int) (s t : State) : Prop where
  a_loaded : t.a = v
  zero_flag : t.flagZWith f = (v == 0)
  negative_flag : t.flagNWith f = v.getLsbD 7
  reserved_bits : ∀ k : Fin 8, isReservedBitWith f k = true → t.p.getLsbD k = s.p.getLsbD k
  pc_advances : t.pc = s.pc + 2
  units_charged : t.budget = s.budget - units
  sp_kept : t.sp = s.sp
  x_kept : t.x = s.x
  y_kept : t.y = s.y
  mem_kept : ∀ addr : Word, t.mem.read addr = s.mem.read addr
  diag_kept : t.diag = s.diag

/-- The whole effect of a load, at the machine's flag positions. -/
abbrev LoadEffect (v : Byte) (units : Int) (s t : State) : Prop := LoadEffectWith flagBits v units s t

/-- The whole effect of a jump-to-subroutine to `target`, from `s` to `t`, in the words of 42_jump_to_subroutine.md R95.
The stored bytes are the two at SP's old value and the address after it (the addresses `pushWord` gives `writeWord`),
low byte first; every other byte of memory, A, X, Y, all of P and DIAG are unchanged. The wrap-arounds are decision D5
(log 5), the stack model decision D7 (log 7). -/
structure JumpEffect (target : Word) (s t : State) : Prop where
  pc_target : t.pc = target
  sp_advances : t.sp = s.sp + 2
  pushed_low : t.mem.read s.sp = lowByte (s.pc + 2)
  pushed_high : t.mem.read (inc16 s.sp) = highByte (s.pc + 2)
  mem_kept : ∀ addr : Word, addr ≠ s.sp → addr ≠ inc16 s.sp → t.mem.read addr = s.mem.read addr
  units_charged : t.budget = s.budget - 6
  a_kept : t.a = s.a
  x_kept : t.x = s.x
  y_kept : t.y = s.y
  p_kept : t.p = s.p
  diag_kept : t.diag = s.diag

/-- The whole effect of the unknown-opcode step for the byte `op`, from `s` to `t`, in the words of 60_exceptions.md R100:
PC up by 1 modulo 65,536 (decision D5, log 5), 1 unit, one pair appended to DIAG (decision D10, log 10) that names the
byte and the address it was fetched from; SP, A, X, Y, all of P and every byte of memory are unchanged. -/
structure UnknownEffect (op : Byte) (s t : State) : Prop where
  pc_advances : t.pc = s.pc + 1
  units_charged : t.budget = s.budget - 1
  diag_appended : t.diag = s.diag ++ [(op, s.pc)]
  sp_kept : t.sp = s.sp
  a_kept : t.a = s.a
  x_kept : t.x = s.x
  y_kept : t.y = s.y
  p_kept : t.p = s.p
  mem_kept : ∀ addr : Word, t.mem.read addr = s.mem.read addr

/-- The instruction is one of the three loads. -/
def isLoad : Instr → Bool
  | .ldaImm _ => true
  | .ldaZp _ => true
  | .ldaZpX _ => true
  | .jsrAbs _ => false
  | .unknown _ => false

/-- How many jump-to-subroutine instructions a list of executed instructions holds: `j` of 10_state.md R26. -/
def jumpCount : List Instr → Nat
  | [] => 0
  | .jsrAbs _ :: rest => jumpCount rest + 1
  | .ldaImm _ :: rest => jumpCount rest
  | .ldaZp _ :: rest => jumpCount rest
  | .ldaZpX _ :: rest => jumpCount rest
  | .unknown _ :: rest => jumpCount rest

end Sys2Proof.Machine
end

