-- ==== Sys2Proof/Certificates/Slice0/Obligations.lean ====
section
/-! DEFINITION. The statements for the provers. Each docstring names the spec text it formalises. "Derived" clauses rest
on decisions the spec marks as its own (D3 flags, D5 and D6 wrap-around, D7 stack, D10 and D12 run-control state) or on
the default parameters, and name the log entry. -/

open Sys2Proof Sys2Proof.Machine

/-! ### Construction and reset -/

/-- 70_reset_and_hazards.md R122: after any reset PC is 0xFFFC, SP is 0x0100, A, X, Y and all of P are zero and every
memory cell is zero. Reset always succeeds. -/
def Obligations.ResetGivesCanonicalState : Prop :=
  ∀ s : State, ∃ t, hostOp .reset s = .next t ∧
    t.pc = 0xFFFC ∧ t.sp = 0x0100 ∧ t.a = 0 ∧ t.x = 0 ∧ t.y = 0 ∧ t.p = 0 ∧
    ∀ addr : Word, t.mem.read addr = 0

/-- 70_reset_and_hazards.md R121 and decisions D10 and D12 (logs 10 and 12, the spec's own choices): reset touches
neither the budget nor DIAG, its result depends on nothing else of the state before, and `State.reset` is construction
followed by reset. -/
def Obligations.ResetKeepsBudgetAndDiagOnly : Prop :=
  (∀ s : State, (hostReset s).budget = s.budget ∧ (hostReset s).diag = s.diag) ∧
  (∀ s s' : State, s.budget = s'.budget → s.diag = s'.diag → hostReset s = hostReset s') ∧
  (∀ s : State, hostReset (hostReset s) = hostReset s) ∧
  State.reset = hostReset State.construct

/-- 70_reset_and_hazards.md R120: after construction every register and every memory cell is zero, and that is not the
state execution starts from. -/
def Obligations.ConstructionIsAllZero : Prop :=
  State.construct.regFile = ⟨0x0000, 0x0000, 0x00, 0x00, 0x00, 0x00⟩ ∧
  (∀ addr : Word, State.construct.mem.read addr = 0x00) ∧
  State.reset ≠ State.construct

/-- 70_reset_and_hazards.md R123 and R124 (decision D8, log 8): a host that resets and writes an encoded instruction at
0xFFFC gets exactly that instruction run by the next step, so the two bytes at 0xFFFC are opcode and operand, not a
pointer. -/
def Obligations.FirstInstructionStandsAtResetVector : Prop :=
  ∀ (s : State) (i : Instr), i.wellFormed = true →
    let t := { hostReset s with mem := (hostReset s).mem.writeBytes 0xFFFC (encode i) }
    step t = exec i t

/-! ### Memory -/

/-- 20_memory.md R32: after `MemWrite(addr, 1, v)` the cell holds `v` and every other cell is unchanged, at every address;
and only jump-to-subroutine issues it, so any other instruction leaves memory as it was. -/
def Obligations.WriteChangesOneCell : Prop :=
  (∀ (m : Memory) (addr : Word) (v : Byte),
    (m.write addr v).read addr = v ∧
    ∀ other : Word, other ≠ addr → (m.write addr v).read other = m.read other) ∧
  (∀ (i : Instr) (s t : State), exec i s = .next t → (∀ target, i ≠ .jsrAbs target) → t.mem = s.mem)

/-- The canonical form says what it should: two canonical memories that read alike at every address are the same list
(log 11). -/
def Obligations.CanonicalMemoriesThatReadAlikeAreEqual : Prop :=
  ∀ m m' : Memory, m.wf → m'.wf → (∀ addr : Word, m.read addr = m'.read addr) → m = m'

/-- 20_memory.md R33 and R35, 40_engine.md R68 (wrap: decision D5, log 5): after `WriteWord(addr, w)` the two bytes
recombined little-endian are `w`, at every address, 0xFFFF included; no other byte, register or diagnostic changes, and
2 units are charged. -/
def Obligations.WordWriteRoundTripsLittleEndian : Prop :=
  ∀ (addr w : Word) (s : State),
    cat ((writeWord addr w s).mem.read (addr + 1)) ((writeWord addr w s).mem.read addr) = w ∧
    (∀ other : Word, other ≠ addr → other ≠ addr + 1 →
      (writeWord addr w s).mem.read other = s.mem.read other) ∧
    (writeWord addr w s).regFile = s.regFile ∧
    (writeWord addr w s).budget = s.budget - 2 ∧
    (writeWord addr w s).diag = s.diag

/-- 10_state.md R24, 20_memory.md R46: the idle host's write of a cell changes that cell and nothing else, and costs
nothing. -/
def Obligations.HostWriteChangesOnlyItsCell : Prop :=
  ∀ (addr : Word) (v : Byte) (s : State), ∃ t, hostOp (.write addr v) s = .next t ∧
    t.mem.read addr = v ∧
    (∀ other : Word, other ≠ addr → t.mem.read other = s.mem.read other) ∧
    t.regFile = s.regFile ∧ t.budget = s.budget ∧ t.diag = s.diag

/-! ### The primitives -/

/-- 40_engine.md R67: `ReadByteZP(zp)` returns the byte at the address `zp` itself, in 0x0000 to 0x00FF, charges 1 unit
and moves neither PC nor anything else. -/
def Obligations.ZeroPageReadUsesItsByteAsAddress : Prop :=
  ∀ (zp : Byte) (s : State),
    (readByteZP zp s).1 = s.mem.read (BitVec.ofNat 16 zp.toNat) ∧
    (readByteZP zp s).2.budget = s.budget - 1 ∧
    (readByteZP zp s).2.regFile = s.regFile ∧
    (readByteZP zp s).2.mem = s.mem ∧
    (readByteZP zp s).2.diag = s.diag

/-- 40_engine.md R66 (wrap: decision D5, log 5): `FetchWord` is observably two `FetchByte` calls, the first giving the low
byte. -/
def Obligations.FetchWordIsTwoFetchBytes : Prop :=
  ∀ s : State,
    (fetchWord s).2 = (fetchByte (fetchByte s).2).2 ∧
    (fetchWord s).1.toNat = (fetchByte (fetchByte s).2).1.toNat * 256 + (fetchByte s).1.toNat

/-- 40_engine.md R74 (assignment: decision D3, log 3) for every admissible choice of the flag positions of R5: `SetZN(v)`
assigns Zero and Negative and writes no other bit of P. -/
def Obligations.SetZNAssignsTwoFlagsInAnyLayout : Prop :=
  ∀ (f : FlagBits) (v : Byte) (s : State), f.Admissible →
    (setZNWith f v s).p.getLsbD f.zeroBit = (v == 0) ∧
    (setZNWith f v s).p.getLsbD f.negBit = v.getLsbD 7 ∧
    (∀ k : Fin 8, k ≠ f.zeroBit → k ≠ f.negBit →
      (setZNWith f v s).p.getLsbD k = s.p.getLsbD k) ∧
    setZNWith f v s = { s with p := (setZNWith f v s).p }

/-! ### Encoding -/

/-- 30_encoding.md R50 to R53, for every admissible choice of the opcode parameters: decoding an encoded well-formed
instruction gives it back, every operand at every value, and leaves the bytes after it. -/
def Obligations.DecodeOfEncodeIsIdentity : Prop :=
  ∀ (o : OpcodeParams) (i : Instr) (rest : List Byte), o.Admissible → i.wellFormedWith o = true →
    decodeWith o (encodeWith o i ++ rest) = .instr i rest

/-- 30_encoding.md R50, R51 and R55, the other direction: what the decoder reads is well-formed and its encoding followed
by the rest is the list read, so no byte string has two meanings. -/
def Obligations.EncodeOfDecodeIsIdentity : Prop :=
  ∀ (o : OpcodeParams) (bytes : List Byte) (i : Instr) (rest : List Byte),
    decodeWith o bytes = .instr i rest →
    i.wellFormedWith o = true ∧ encodeWith o i ++ rest = bytes

/-- 30_encoding.md R54 and R55: the decoder refuses no opcode byte. It rejects exactly the empty list and a list that ends
inside a known instruction, whose length the opcode byte alone gives: 2 for a load, 3 for JSR. Any other byte is a whole
instruction by itself and is never rejected. -/
def Obligations.DecoderRejectsOnlyShortLists : Prop :=
  ∀ (o : OpcodeParams) (bytes : List Byte) (e : DecodeError), o.Admissible →
    (decodeWith o bytes = .rejected e ↔
      (bytes = [] ∧ e = .empty) ∨
      (∃ op tail n, bytes = op :: tail ∧ e = .truncated op n ∧ tail.length + 1 < n ∧
        ((op = o.jsrAbs ∧ n = 3) ∨
         ((op = o.ldaImm ∨ op = o.ldaZp ∨ op = o.ldaZpX) ∧ n = 2))))

/-- 30_encoding.md R53 with the default opcode values (PRESUMED, log 1): a few byte strings written out from the table
decode to the instruction they stand for, the JSR target low byte first. -/
def Obligations.TableBytesDecode : Prop :=
  decode [0b10101001, 0b10000100] = .instr (.ldaImm 0x84) [] ∧
  decode [0b10100101, 0b00010000, 0xEA] = .instr (.ldaZp 0x10) [0xEA] ∧
  decode [0b10110101, 0b11110000] = .instr (.ldaZpX 0xF0) [] ∧
  decode [0b00100000, 0b00110100, 0b00010010] = .instr (.jsrAbs 0x1234) [] ∧
  decode [0b00000000, 0xA9] = .instr (.unknown 0x00) [0xA9]

/-! ### The step -/

/-- 40_engine.md section 2, `Step()`, with the handlers of 41_load_accumulator.md, 42_jump_to_subroutine.md and
60_exceptions.md it selects and the primitives of 40_engine.md section 1: the model's step is the spec's pseudocode, line
by line, at the machine's parameters; it fetches one opcode, runs exactly the handler the opcode selects, and always
succeeds. The pseudocode holds the spec's own decisions D3 flags, D5 and D6 wrap-around, D7 stack and D10 diagnostics
(logs 3, 5, 6, 7 and 10); the parameters are PRESUMED (logs 1 and 2); that the operand may be decoded before PC and budget
move is DEDUCED (log 14), and this statement is what says so. -/
def Obligations.StepFollowsThePseudocode : Prop :=
  ∀ s : State, step s = .next (Pseudocode.step opcodes flagBits s)

/-- 40_engine.md R71: when the three bytes at PC, PC + 1 and PC + 2 decode to `i`, the step is `exec i` at that very state;
step adds nothing around it (fetching and its charges are part of `exec`, log 14). -/
def Obligations.StepRunsTheDecodedInstruction : Prop :=
  ∀ (s : State) (i : Instr) (rest : List Byte),
    decode [s.mem.read s.pc, s.mem.read (s.pc + 1), s.mem.read (s.pc + 2)] = .instr i rest →
    step s = exec i s

/-- 30_encoding.md R50 and R57 (wrap: decision D5, log 5): when a well-formed instruction's encoding stands at PC and the
following addresses modulo 65,536, the step runs it, whatever stands after it. -/
def Obligations.StepRunsTheEncodedInstruction : Prop :=
  ∀ (s : State) (i : Instr), i.wellFormed = true →
    (∀ (k : Nat) (b : Byte), (encode i)[k]? = some b → s.mem.read (s.pc + BitVec.ofNat 16 k) = b) →
    step s = exec i s

/-- The model's own load of an opcode-table word (logs 13 and 17): from any state, the next step runs exactly the
instruction the decoder reads from the word. -/
def Obligations.FetchedTableWordIsExecuted : Prop :=
  ∀ (s : State) (nbits w : Nat) (i : Instr), decodeTableWord nbits w = some i →
    step (s.withFetchWord nbits w) = exec i (s.withFetchWord nbits w)

/-- 60_exceptions.md R104: in every state the step yields a next state; no fault, no stuck state, no refusal. -/
def Obligations.EveryStepIsSafe : Prop := ∀ s : State, SafeStep s

/-! ### The instructions -/

/-- 41_load_accumulator.md, the rule of `LDA #imm8`: the operand byte is loaded, for 2 units (`LoadEffect` says all that
changes and all that does not; decisions D3 and D5, logs 3 and 5). -/
def Obligations.LdaImmediateLoadsItsOperand : Prop :=
  ∀ (imm : Byte) (s : State), ∃ t, exec (.ldaImm imm) s = .next t ∧ LoadEffect imm 2 s t

/-- 41_load_accumulator.md, the rule of `LDA zp8`: the byte at the address `zp8` is loaded, for 3 units (decisions D3 and
D5, logs 3 and 5). -/
def Obligations.LdaZeroPageLoadsTheCell : Prop :=
  ∀ (zp : Byte) (s : State), ∃ t, exec (.ldaZp zp) s = .next t ∧
    LoadEffect (s.mem.read (BitVec.ofNat 16 zp.toNat)) 3 s t

/-- 41_load_accumulator.md, the rule of `LDA zp8,X`: the byte at `(zp8 + X) mod 256` is loaded, for 4 units, for every X
(decision D6, log 6; D3 and D5, logs 3 and 5). -/
def Obligations.LdaZeroPageXLoadsTheIndexedCell : Prop :=
  ∀ (zp : Byte) (s : State), ∃ t, exec (.ldaZpX zp) s = .next t ∧
    LoadEffect (s.mem.read (BitVec.ofNat 16 ((zp.toNat + s.x.toNat) % 256))) 4 s t

/-- 42_jump_to_subroutine.md, the rule of `JSR abs16`: the address of the instruction's last byte is pushed as a
little-endian word at SP, SP goes up by 2, PC becomes the target, for 6 units (`JumpEffect` says all that changes and all
that does not; decisions D5 and D7, logs 5 and 7). -/
def Obligations.JsrPushesReturnAddressAndJumps : Prop :=
  ∀ (target : Word) (s : State), ∃ t, exec (.jsrAbs target) s = .next t ∧ JumpEffect target s t

/-- 60_exceptions.md, the rule of the unknown opcode (DIAG as a list: decision D10, log 10; wrap: D5, log 5): the
instruction runs for every byte and only reports it (`UnknownEffect` says all that changes and all that does not), and a
byte at PC that is none of the four known opcodes makes the step do exactly that. -/
def Obligations.UnknownOpcodeOnlyReportsAndGoesOn : Prop :=
  (∀ (op : Byte) (s : State), ∃ t, exec (.unknown op) s = .next t ∧ UnknownEffect op s t) ∧
  (∀ s : State, opcodes.isKnown (s.mem.read s.pc) = false →
    ∃ t, step s = .next t ∧ UnknownEffect (s.mem.read s.pc) s t)

/-- 70_reset_and_hazards.md R130: every instruction runs and takes its constant number of units, whatever its operand and
the state; the table's rows add up to those numbers; reset and host writes cost nothing. -/
def Obligations.EveryInstructionTakesItsCost : Prop :=
  (∀ (imm : Byte) (s : State), costRow (.ldaImm imm) = ⟨1, 1, 0, 0, 0⟩ ∧
    ∃ t, exec (.ldaImm imm) s = .next t ∧ t.budget = s.budget - 2) ∧
  (∀ (zp : Byte) (s : State), costRow (.ldaZp zp) = ⟨1, 1, 0, 1, 0⟩ ∧
    ∃ t, exec (.ldaZp zp) s = .next t ∧ t.budget = s.budget - 3) ∧
  (∀ (zp : Byte) (s : State), costRow (.ldaZpX zp) = ⟨1, 1, 1, 1, 0⟩ ∧
    ∃ t, exec (.ldaZpX zp) s = .next t ∧ t.budget = s.budget - 4) ∧
  (∀ (target : Word) (s : State), costRow (.jsrAbs target) = ⟨1, 2, 1, 0, 2⟩ ∧
    ∃ t, exec (.jsrAbs target) s = .next t ∧ t.budget = s.budget - 6) ∧
  (∀ (op : Byte) (s : State), costRow (.unknown op) = ⟨1, 0, 0, 0, 0⟩ ∧
    ∃ t, exec (.unknown op) s = .next t ∧ t.budget = s.budget - 1) ∧
  (∀ (i : Instr) (s t : State), exec i s = .next t → t.budget = s.budget - (costRow i).total) ∧
  (∀ s : State, (hostReset s).budget = s.budget) ∧
  (∀ (addr : Word) (v : Byte) (s : State), (hostWrite addr v s).budget = s.budget)

/-! ### Rules of the whole machine -/

/-- 40_engine.md section 2, the handler contract: an instruction reads nothing but the registers and memory. From two
states that agree on those, whatever their budgets (zero and negative ones too) and diagnostics, it runs to completion in
both, leaves the same registers and memory and charges the same. That it also appends the same pairs at the end of DIAG
rests on the spec's own decision D10 (log 10), running to completion on any budget on D4 (log 4). -/
def Obligations.InstructionsReadOnlyRegistersAndMemory : Prop :=
  ∀ (i : Instr) (s s' : State), s.regFile = s'.regFile →
    (∀ addr : Word, s.mem.read addr = s'.mem.read addr) →
    ∃ t t' new, exec i s = .next t ∧ exec i s' = .next t' ∧
      t.regFile = t'.regFile ∧ (∀ addr : Word, t.mem.read addr = t'.mem.read addr) ∧
      s.budget - t.budget = s'.budget - t'.budget ∧
      t.diag = s.diag ++ new ∧ t'.diag = s'.diag ++ new

/-- 10_state.md R13: A is written by reset, to 0, and by the three loads, which replace all 8 bits of it (the old A leaves
no trace in the next state) and whose flag update reads the new A; every other instruction keeps A, and no instruction
reads it. -/
def Obligations.AccumulatorIsWrittenByLoadsAndNeverRead : Prop :=
  (∀ s : State, (hostReset s).a = 0) ∧
  (∀ (i : Instr) (s t : State) (a' : Byte), exec i s = .next t → isLoad i = true →
    exec i { s with a := a' } = .next t ∧ t.p = (setZN t.a s).p) ∧
  (∀ (i : Instr) (s t : State) (a' : Byte), exec i s = .next t → isLoad i = false →
    t.a = s.a ∧ exec i { s with a := a' } = .next { t with a := a' })

/-- 10_state.md, the rules of X and Y, with its host access and its values after reset: reset writes both, to 0; no other
host operation and no instruction writes either, no instruction reads Y, and X is read by `LDA zp8,X` only. -/
def Obligations.IndexRegistersAreWrittenByResetOnly : Prop :=
  (∀ s : State, (hostReset s).x = 0 ∧ (hostReset s).y = 0) ∧
  (∀ (o : HostOp) (s t : State), o ≠ .reset → hostOp o s = .next t → t.x = s.x ∧ t.y = s.y) ∧
  (∀ (i : Instr) (s t : State), exec i s = .next t →
    t.x = s.x ∧ t.y = s.y ∧
    (∀ y' : Byte, exec i { s with y := y' } = .next { t with y := y' }) ∧
    (∀ x' : Byte, (∀ zp, i ≠ .ldaZpX zp) → exec i { s with x := x' } = .next { t with x := x' }))

/-- 10_state.md, the rules of the flags: of the instructions, JSR and an unknown opcode leave all of P unchanged, a load writes no reserved bit,
and no instruction reads P: with any other P the same registers, memory, units and diagnostics result. -/
def Obligations.FlagsAreWrittenByLoadsAndNeverRead : Prop :=
  ∀ (i : Instr) (s t : State), exec i s = .next t →
    (isLoad i = false → t.p = s.p) ∧
    (∀ k : Fin 8, isReservedBit k = true → t.p.getLsbD k = s.p.getLsbD k) ∧
    (∀ p' : Byte, ∃ q : Byte, exec i { s with p := p' } = .next { t with p := q })

/-- 42_jump_to_subroutine.md, control transfer and SP (wrap: decision D5, log 5): JSR sets PC to its target, any 16-bit
value; every other instruction leaves PC at the next sequential address and SP alone. -/
def Obligations.OnlyJsrTransfersControlOrMovesSp : Prop :=
  ∀ (i : Instr) (s t : State), exec i s = .next t →
    (∀ target, i = .jsrAbs target → t.pc = target ∧ t.sp = s.sp + 2) ∧
    ((∀ target, i ≠ .jsrAbs target) → t.pc = s.pc + BitVec.ofNat 16 i.length ∧ t.sp = s.sp)

/-- 60_exceptions.md, R100, R106 and R107 (DIAG as a list: decision D10, log 10): DIAG grows by one pair at an unknown
opcode, naming the byte and the PC it was fetched from, and by nothing at any other instruction. -/
def Obligations.DiagnosticsNameExactlyUnknownOpcodes : Prop :=
  ∀ s : State, ∃ t, step s = .next t ∧
    ((opcodes.isKnown (s.mem.read s.pc) = true ∧ t.diag = s.diag) ∨
     (opcodes.isKnown (s.mem.read s.pc) = false ∧ t.diag = s.diag ++ [(s.mem.read s.pc, s.pc)]))

/-- 42_jump_to_subroutine.md R97 and 20_memory.md R44: at the level of the step, JSR's target is fetched before the push,
for every SP, also one whose push lands on the JSR's own bytes or on the target (wrap: decision D5, log 5). -/
def Obligations.JsrFetchesItsTargetBeforeThePush : Prop :=
  ∀ s : State, s.mem.read s.pc = opcodes.jsrAbs →
    ∃ t, step s = .next t ∧ JumpEffect (cat (s.mem.read (s.pc + 2)) (s.mem.read (s.pc + 1))) s t

/-- 20_memory.md R44 and R97's row "push lands on the target": a JSR to SP's old value makes the pushed low byte the next
opcode; when that byte is an unknown opcode the very next step reports it. -/
def Obligations.PushedByteIsTheNextOpcode : Prop :=
  ∀ s : State, opcodes.isKnown (lowByte (s.pc + 2)) = false →
    ∃ t u, exec (.jsrAbs s.sp) s = .next t ∧ step t = .next u ∧
      u.diag = s.diag ++ [(lowByte (s.pc + 2), s.sp)] ∧ u.pc = s.sp + 1 ∧ u.budget = s.budget - 7

/-! ### The execute loop -/

/-- 40_engine.md R70: with a budget of zero or less nothing executes; the budget itself is set. -/
def Obligations.ExecuteWithNoBudgetRunsNothing : Prop :=
  ∀ (b : Int) (s : State), b ≤ 0 →
    execute b s = .next { s with budget := b } ∧ executed b s = []

/-- 60_exceptions.md R113 and R101: a budget of 1 runs exactly one whole instruction, whatever its cost. -/
def Obligations.ExecuteOneIsASingleStep : Prop :=
  ∀ s : State, execute 1 s = step { s with budget := 1 } ∧ executed 1 s = [fetchInstr s]

/-- 40_engine.md R70, the `while` loop as an equation: the loop stops where the budget is used up and otherwise steps once
and goes on; the fuel the model gives it never runs out first. -/
def Obligations.ExecuteIsTheWhileLoop : Prop :=
  (∀ s : State, s.budget ≤ 0 → runBudget s = .next s) ∧
  (∀ s : State, 0 < s.budget → ∃ t, step s = .next t ∧ runBudget s = runBudget t)

/-- 40_engine.md R73 (signed budget: decisions D4 and D12, log 4): `Execute(b)` ends; it runs the executed instructions one
after another; the final budget is `b` minus the sum of their costs, between -5 and 0 when `b > 0`; and their number is
the least whose costs reach `b`. -/
def Obligations.ExecuteAccountsForEveryUnit : Prop :=
  ∀ (b : Int) (s : State), ∃ t, execute b s = .next t ∧
    runInstrs (executed b s) { s with budget := b } = .next t ∧
    t.budget = b - totalCost (executed b s) ∧
    (0 < b → -5 ≤ t.budget ∧ t.budget ≤ 0) ∧
    (∀ k < (executed b s).length, totalCost ((executed b s).take k) < b)

/-- 40_engine.md R75 (decision D15, log 9): two calls, the first of which ends exactly at budget 0 and the second of which
has a budget that is not negative, give what one call with the sum of the budgets gives: the same registers, memory,
diagnostics and final budget. (With a negative second budget the one call stops earlier.) -/
def Obligations.SplitExecuteEqualsOneExecute : Prop :=
  ∀ (b₁ b₂ : Int) (s t : State), 0 ≤ b₂ → execute b₁ s = .next t → t.budget = 0 →
    execute (b₁ + b₂) s = execute b₂ t

/-- 10_state.md R26 and R12 (wrap: decision D5, stack: D7; logs 5 and 7): an `Execute` moves SP up by 2 for each JSR it
executes, modulo 65,536, and by nothing else. -/
def Obligations.StackPointerCountsJumps : Prop :=
  ∀ (b : Int) (s : State), ∃ t, execute b s = .next t ∧
    t.sp = s.sp + BitVec.ofNat 16 (2 * jumpCount (executed b s))

/-- 93_implementation_defined.md K3 and K4 with 60_exceptions.md R100 and R101: a run executes no unknown opcode exactly
when DIAG did not grow, and a clean run's executed costs add up to the budget it was given. -/
def Obligations.CleanRunsExecuteKnownOpcodesOnly : Prop :=
  (∀ (b : Int) (s t : State), execute b s = .next t →
    (t.diag = s.diag ↔ ∀ op, Instr.unknown op ∉ executed b s)) ∧
  (∀ (b : Int) (s t : State), CleanRun b s t →
    (∀ op, Instr.unknown op ∉ executed b s) ∧ totalCost (executed b s) = b)

/-! ### Invariants -/

/-- The invariant holds at reset (10_state.md R25 and R26). -/
def Obligations.ResetMeetsTheInvariant : Prop := State.reset.Inv

/-- Every step keeps the invariant (10_state.md R26): canonical memory, X and Y zero, the reserved bits of P zero, Zero and
Negative never both set, SP even, every diagnostic naming an unknown opcode. -/
def Obligations.StepKeepsTheInvariant : Prop :=
  ∀ s t : State, s.Inv → step s = .next t → t.Inv

/-- Whatever the host does (10_state.md R26: "every state reached from `Reset` by host memory writes and `Execute` calls"):
a session of resets, memory writes and `Execute` calls completes from every state that meets the invariant, in one that
meets it. -/
def Obligations.SessionsCompleteAndKeepTheInvariant : Prop :=
  ∀ (ops : List HostOp) (s : State), s.Inv → ∃ t, session ops s = .next t ∧ t.Inv

/-! ### Any choice of the open parameters (00_scope.md R5; 92_eei_decisions.md D1 and D2) -/

/-- 00_scope.md, the open parameters: the machine the host runs is the parametric machine at the rule's defaults (PRESUMED,
logs 1 and 2), and those are an admissible choice (log 19). -/
def Obligations.HostMachineIsTheParametricOneAtTheDefaults : Prop :=
  Sys2Proof.core = coreWith params ∧
  params = ⟨⟨0xA9, 0xA5, 0xB5, 0x20⟩, ⟨1, 7⟩⟩ ∧ params.Admissible

/-- 40_engine.md section 2 and the handlers, for every choice of the opcode bytes and flag positions: the parametric step is
the spec's pseudocode at that choice (decisions D3, D5, D6, D7, D10; logs 3, 5, 6, 7, 10, 14 and 19). -/
def Obligations.StepFollowsThePseudocodeForAnyParameters : Prop :=
  ∀ (c : Params) (s : State), stepWith c s = .next (Pseudocode.step c.opcodes c.flagBits s)

/-- The rules of the five instructions for every choice of the flag positions that 00_scope.md allows: each runs, and does
all that and only that which `LoadEffectWith`, `JumpEffect` and `UnknownEffect` say (decisions D3, D5, D6, D7, D10; logs 3,
5, 6, 7, 10 and 19). -/
def Obligations.InstructionsTakeEffectInAnyFlagLayout : Prop :=
  ∀ (c : Params) (s : State), c.flagBits.Admissible →
    (∀ imm : Byte, ∃ t, execWith c (.ldaImm imm) s = .next t ∧ LoadEffectWith c.flagBits imm 2 s t) ∧
    (∀ zp : Byte, ∃ t, execWith c (.ldaZp zp) s = .next t ∧
      LoadEffectWith c.flagBits (s.mem.read (BitVec.ofNat 16 zp.toNat)) 3 s t) ∧
    (∀ zp : Byte, ∃ t, execWith c (.ldaZpX zp) s = .next t ∧
      LoadEffectWith c.flagBits (s.mem.read (BitVec.ofNat 16 ((zp.toNat + s.x.toNat) % 256))) 4 s t) ∧
    (∀ target : Word, ∃ t, execWith c (.jsrAbs target) s = .next t ∧ JumpEffect target s t) ∧
    (∀ op : Byte, ∃ t, execWith c (.unknown op) s = .next t ∧ UnknownEffect op s t)

/-- 30_encoding.md section 1 and section 7 for every choice of the opcode bytes that 00_scope.md allows (wrap: decision D5,
log 5; log 19): when a well-formed instruction's encoding under the choice stands at PC, the step under the choice runs it. -/
def Obligations.StepRunsTheEncodedInstructionForAnyOpcodes : Prop :=
  ∀ (c : Params) (s : State) (i : Instr), c.opcodes.Admissible → i.wellFormedWith c.opcodes = true →
    (∀ (k : Nat) (b : Byte), (encodeWith c.opcodes i)[k]? = some b →
      s.mem.read (s.pc + BitVec.ofNat 16 k) = b) →
    stepWith c s = execWith c i s

/-- 00_scope.md, the open parameters: apart from which bytes encode which instruction, only the places of the two flags
depend on the choice. From one state, the same instruction under two admissible choices gives next states that are equal
but for P; after a load the Zero and Negative flags agree, each read at its own choice's position (assignment: decision D3,
log 3), and after any other instruction P agrees too. -/
def Obligations.ParametersMatterOnlyToEncodingAndFlagPlaces : Prop :=
  ∀ (c c' : Params) (i : Instr) (s : State), c.Admissible → c'.Admissible →
    ∃ t q, execWith c i s = .next t ∧ execWith c' i s = .next { t with p := q } ∧
      (isLoad i = true →
        ({ t with p := q } : State).flagZWith c'.flagBits = t.flagZWith c.flagBits ∧
        ({ t with p := q } : State).flagNWith c'.flagBits = t.flagNWith c.flagBits) ∧
      (isLoad i = false → q = t.p)

/-- 40_engine.md section 2 (end of a run) for every choice of the parameters (signed budget: decisions D4 and D12, log 4;
log 19): `Execute(b)` ends after running the executed instructions, its final budget is `b` minus the sum of their costs,
between -5 and 0 when `b > 0`, and their number is the least whose costs reach `b`. -/
def Obligations.ExecuteAccountsForEveryUnitForAnyParameters : Prop :=
  ∀ (c : Params) (b : Int) (s : State), ∃ t, executeWith c b s = .next t ∧
    runInstrsWith c (executedWith c b s) { s with budget := b } = .next t ∧
    t.budget = b - totalCost (executedWith c b s) ∧
    (0 < b → -5 ≤ t.budget ∧ t.budget ≤ 0) ∧
    (∀ k < (executedWith c b s).length, totalCost ((executedWith c b s).take k) < b)

/-- 10_state.md section 7 for every choice of the parameters that 00_scope.md allows (logs 3, 5, 10 and 19): the invariant
at that choice holds at reset, every step keeps it, and every session of host operations completes and keeps it. -/
def Obligations.InvariantHoldsForAnyParameters : Prop :=
  ∀ c : Params, c.Admissible →
    State.reset.InvWith c ∧
    (∀ s t : State, s.InvWith c → stepWith c s = .next t → t.InvWith c) ∧
    (∀ (ops : List HostOp) (s : State), s.InvWith c → ∃ t, sessionWith c ops s = .next t ∧ t.InvWith c)
end

