-- ==== Sys2Proof/Laws/Alu.lean ====
section
/-! SUPPORT. The laws of the ALU operations: CAT and SPLIT are inverse, and repeated increments add up. -/

namespace Sys2Proof.Machine

theorem cat_toNat (hi lo : Byte) : (cat hi lo).toNat = hi.toNat * 256 + lo.toNat := by
  have h1 := hi.isLt
  have h2 := lo.isLt
  simp only [cat, BitVec.toNat_ofNat]
  omega

theorem lowByte_toNat (w : Word) : (lowByte w).toNat = w.toNat % 256 := by
  simp [lowByte]

theorem highByte_toNat (w : Word) : (highByte w).toNat = w.toNat / 256 := by
  have := w.isLt
  simp only [highByte, BitVec.extractLsb'_toNat, Nat.shiftRight_eq_div_pow]
  omega

@[simp] theorem cat_split (w : Word) : cat (highByte w) (lowByte w) = w := by
  apply BitVec.eq_of_toNat_eq
  rw [cat_toNat, lowByte_toNat, highByte_toNat]
  omega

@[simp] theorem lowByte_cat (hi lo : Byte) : lowByte (cat hi lo) = lo := by
  have := lo.isLt
  apply BitVec.eq_of_toNat_eq
  rw [lowByte_toNat, cat_toNat]
  omega

@[simp] theorem highByte_cat (hi lo : Byte) : highByte (cat hi lo) = hi := by
  have := lo.isLt
  apply BitVec.eq_of_toNat_eq
  rw [highByte_toNat, cat_toNat]
  omega

theorem inc16_inc16 (w : Word) : inc16 (inc16 w) = w + 2 := by
  simp only [inc16]; bv_omega

theorem addTwo16_inc16 (w : Word) : addTwo16 (inc16 w) = w + 3 := by
  simp only [inc16, addTwo16]; bv_omega

theorem dec16_add_three (w : Word) : dec16 (w + 3) = w + 2 := by
  simp only [dec16]; bv_omega

theorem zext16_eq_ofNat (b : Byte) : zext16 b = BitVec.ofNat 16 b.toNat := by
  apply BitVec.eq_of_toNat_eq; simp [zext16]

theorem add8_toNat (a b : Byte) : (add8 a b).toNat = (a.toNat + b.toNat) % 256 := by
  simp [add8]

end Sys2Proof.Machine
end

