-- ==== Sys2Proof/Laws/Decode.lean ====
section
/-! SUPPORT. The opcode map: which instruction each opcode byte selects, and its length. -/

namespace Sys2Proof

theorem opcodes_admissible : Machine.opcodes.Admissible := by decide

theorem isKnown_eq_false_iff (o : OpcodeParams) (op : Byte) :
    o.isKnown op = false ↔ op ≠ o.ldaImm ∧ op ≠ o.ldaZp ∧ op ≠ o.ldaZpX ∧ op ≠ o.jsrAbs := by
  simp [OpcodeParams.isKnown, and_assoc]

theorem decodeAtWith_ldaImm {o : OpcodeParams} {f : Nat → Byte} (h : f 0 = o.ldaImm) :
    decodeAtWith o f = .ldaImm (f 1) := by
  simp [decodeAtWith, h]

theorem decodeAtWith_ldaZp {o : OpcodeParams} (ho : o.Admissible) {f : Nat → Byte}
    (h : f 0 = o.ldaZp) : decodeAtWith o f = .ldaZp (f 1) := by
  obtain ⟨h1, -, -, -, -, -⟩ := ho
  simp [decodeAtWith, h, Ne.symm h1]

theorem decodeAtWith_ldaZpX {o : OpcodeParams} (ho : o.Admissible) {f : Nat → Byte}
    (h : f 0 = o.ldaZpX) : decodeAtWith o f = .ldaZpX (f 1) := by
  obtain ⟨-, h2, -, h4, -, -⟩ := ho
  simp [decodeAtWith, h, Ne.symm h2, Ne.symm h4]

theorem decodeAtWith_jsrAbs {o : OpcodeParams} (ho : o.Admissible) {f : Nat → Byte}
    (h : f 0 = o.jsrAbs) : decodeAtWith o f = .jsrAbs (Machine.cat (f 2) (f 1)) := by
  obtain ⟨-, -, h3, -, h5, h6⟩ := ho
  simp [decodeAtWith, h, Ne.symm h3, Ne.symm h5, Ne.symm h6]

theorem decodeAtWith_unknown {o : OpcodeParams} {f : Nat → Byte} (h : o.isKnown (f 0) = false) :
    decodeAtWith o f = .unknown (f 0) := by
  obtain ⟨h1, h2, h3, h4⟩ := (isKnown_eq_false_iff o (f 0)).mp h
  simp [decodeAtWith, h1, h2, h3, h4]

/-- The length the opcode byte dictates is the decoded instruction's length. -/
theorem decodeAtWith_length (o : OpcodeParams) (f : Nat → Byte) :
    (decodeAtWith o f).length = lengthOfWith o (f 0) := by
  unfold decodeAtWith lengthOfWith
  repeat' split
  all_goals rfl

/-- Decoding looks at no byte beyond the instruction's own. -/
theorem decodeAtWith_congr {o : OpcodeParams} {f g : Nat → Byte}
    (h : ∀ k < lengthOfWith o (f 0), f k = g k) : decodeAtWith o f = decodeAtWith o g := by
  unfold lengthOfWith at h
  unfold decodeAtWith
  repeat' split at h
  all_goals simp_all

end Sys2Proof
end

