-- ==== Sys2Proof/Laws/Memory.lean ====
section
/-! SUPPORT. The laws of memory: what a read gives after a write, and that every memory operation keeps the canonical
form. -/

namespace Sys2Proof.Machine

theorem Memory.lookup_erase_same (m : Memory) (n : Nat) :
    Memory.lookup (Memory.erase m n) n = Memory.unlisted := by
  induction m with
  | nil => rfl
  | cons c rest ih =>
    obtain ⟨k, v⟩ := c
    by_cases h : k = n <;> simp [Memory.erase, Memory.lookup, h, ih]

theorem Memory.lookup_erase_other (m : Memory) {n k : Nat} (h : k ≠ n) :
    Memory.lookup (Memory.erase m n) k = Memory.lookup m k := by
  induction m with
  | nil => rfl
  | cons c rest ih =>
    obtain ⟨j, v⟩ := c
    by_cases hj : j = n
    · simp [Memory.erase, Memory.lookup, hj, ih, Ne.symm h]
    · simp [Memory.erase, Memory.lookup, hj, ih]

theorem Memory.lookup_insert_other (m : Memory) {n k : Nat} (b : Byte) (h : k ≠ n) :
    Memory.lookup (Memory.insert m n b) k = Memory.lookup m k := by
  induction m with
  | nil => simp [Memory.insert, Memory.lookup, Ne.symm h]
  | cons c rest ih =>
    obtain ⟨j, v⟩ := c
    by_cases hj : n < j
    · simp [Memory.insert, Memory.lookup, hj, Ne.symm h]
    · simp [Memory.insert, Memory.lookup, hj, ih]

/-- Inserting a cell whose address is not listed makes it readable. -/
theorem Memory.lookup_insert_erase (m : Memory) (n : Nat) (b : Byte) :
    Memory.lookup (Memory.insert (Memory.erase m n) n b) n = b := by
  induction m with
  | nil => simp [Memory.erase, Memory.insert, Memory.lookup]
  | cons c rest ih =>
    obtain ⟨j, v⟩ := c
    by_cases hj : j = n
    · simpa [Memory.erase, hj] using ih
    · by_cases hlt : n < j
      · simp [Memory.erase, Memory.insert, Memory.lookup, hj, hlt]
      · simp [Memory.erase, Memory.insert, Memory.lookup, hj, hlt, ih]

/-- A read after a write to the same address gives the value written. -/
@[simp] theorem Memory.read_write_same (m : Memory) (addr : Word) (v : Byte) :
    (m.write addr v).read addr = v := by
  by_cases h : v = Memory.unlisted
  · simp [Memory.write, Memory.read, h, Memory.lookup_erase_same]
  · simp [Memory.write, Memory.read, h, Memory.lookup_insert_erase]

/-- A write leaves every other address alone. -/
theorem Memory.read_write_other (m : Memory) {addr other : Word} (v : Byte) (h : other ≠ addr) :
    (m.write addr v).read other = m.read other := by
  have hn : other.toNat ≠ addr.toNat := fun e => h (BitVec.eq_of_toNat_eq e)
  by_cases hv : v = Memory.unlisted
  · simp [Memory.write, Memory.read, hv, Memory.lookup_erase_other m hn]
  · simp [Memory.write, Memory.read, hv, Memory.lookup_insert_other _ v hn,
      Memory.lookup_erase_other m hn]

/-- Both cases of a read after a write. -/
theorem Memory.read_write (m : Memory) (addr other : Word) (v : Byte) :
    (m.write addr v).read other = if other = addr then v else m.read other := by
  by_cases h : other = addr
  · simp [h]
  · simp [h, Memory.read_write_other m v h]

@[simp] theorem Memory.read_clear (addr : Word) : Memory.clear.read addr = 0 := rfl

theorem inc16_ne (w : Word) : inc16 w ≠ w := by
  unfold inc16; bv_omega

theorem inc16_eq_add_one (w : Word) : inc16 w = w + 1 := rfl

/-! ### The word write -/

theorem writeWord_read_low (addr w : Word) (s : State) :
    (writeWord addr w s).mem.read addr = lowByte w := by
  show Memory.read (Memory.write _ (inc16 addr) _) addr = _
  rw [Memory.read_write_other _ _ (inc16_ne addr).symm, Memory.read_write_same]

theorem writeWord_read_high (addr w : Word) (s : State) :
    (writeWord addr w s).mem.read (inc16 addr) = highByte w :=
  Memory.read_write_same _ _ _

theorem writeWord_read_other {addr other : Word} (w : Word) (s : State) (hlow : other ≠ addr)
    (hhigh : other ≠ inc16 addr) : (writeWord addr w s).mem.read other = s.mem.read other := by
  show Memory.read (Memory.write _ (inc16 addr) _) other = _
  rw [Memory.read_write_other _ _ hhigh, Memory.read_write_other _ _ hlow]

/-! ### The host's writes of consecutive bytes -/

/-- Three bytes written one after another stand at the address and the two after it, also across 0xFFFF. -/
theorem Memory.read_writeBytes_three (m : Memory) (addr : Word) (b0 b1 b2 : Byte) :
    (m.writeBytes addr [b0, b1, b2]).read addr = b0 ∧
    (m.writeBytes addr [b0, b1, b2]).read (addr + 1) = b1 ∧
    (m.writeBytes addr [b0, b1, b2]).read (addr + 2) = b2 := by
  have h1 : addr ≠ addr + 1 := by bv_omega
  have h2 : addr ≠ addr + 2 := by bv_omega
  have h3 : addr + 1 ≠ addr + 2 := by bv_omega
  have h4 : addr + 1 + 1 = addr + 2 := by bv_omega
  rw [show m.writeBytes addr [b0, b1, b2] =
    ((m.write addr b0).write (addr + 1) b1).write (addr + 1 + 1) b2 from rfl, h4]
  refine ⟨?_, ?_, Memory.read_write_same _ _ _⟩
  · rw [Memory.read_write_other _ _ h2, Memory.read_write_other _ _ h1, Memory.read_write_same]
  · rw [Memory.read_write_other _ _ h3, Memory.read_write_same]

/-! ### The canonical form -/

theorem Memory.mem_erase {m : Memory} {n : Nat} {c : Host.Cell} (h : c ∈ Memory.erase m n) :
    c ∈ m ∧ c.1 ≠ n := by
  induction m with
  | nil => simp [Memory.erase] at h
  | cons d rest ih =>
    obtain ⟨k, v⟩ := d
    by_cases hk : k = n
    · have h' := ih (by simpa [Memory.erase, hk] using h)
      exact ⟨List.mem_cons_of_mem _ h'.1, h'.2⟩
    · rcases List.mem_cons.mp (by simpa [Memory.erase, hk] using h : c ∈ (k, v) :: _) with rfl | h'
      · exact ⟨List.mem_cons_self, hk⟩
      · exact ⟨List.mem_cons_of_mem _ (ih h').1, (ih h').2⟩

theorem Memory.mem_insert {m : Memory} {n : Nat} {b : Byte} {c : Host.Cell}
    (h : c ∈ Memory.insert m n b) : c = (n, b) ∨ c ∈ m := by
  induction m with
  | nil => simpa [Memory.insert] using h
  | cons d rest ih =>
    obtain ⟨k, v⟩ := d
    by_cases hk : n < k
    · simpa [Memory.insert, hk] using h
    · rcases List.mem_cons.mp (by simpa [Memory.insert, hk] using h : c ∈ (k, v) :: _) with rfl | h'
      · exact .inr List.mem_cons_self
      · exact (ih h').imp_right (List.mem_cons_of_mem _)

theorem Memory.rising_erase {m : Memory} (n : Nat) (h : m.Pairwise (fun c d => c.1 < d.1)) :
    (Memory.erase m n).Pairwise (fun c d => c.1 < d.1) := by
  induction m with
  | nil => exact .nil
  | cons c rest ih =>
    obtain ⟨k, v⟩ := c
    obtain ⟨hall, hrest⟩ := List.pairwise_cons.mp h
    by_cases hk : k = n
    · simpa [Memory.erase, hk] using ih hrest
    · simp only [Memory.erase, hk, if_false]
      exact .cons (fun d hd => hall d (Memory.mem_erase hd).1) (ih hrest)

theorem Memory.rising_insert {m : Memory} {n : Nat} (b : Byte)
    (h : m.Pairwise (fun c d => c.1 < d.1)) (hn : ∀ c ∈ m, c.1 ≠ n) :
    (Memory.insert m n b).Pairwise (fun c d => c.1 < d.1) := by
  induction m with
  | nil => exact List.pairwise_singleton _ _
  | cons c rest ih =>
    obtain ⟨k, v⟩ := c
    obtain ⟨hall, hrest⟩ := List.pairwise_cons.mp h
    have hk : k ≠ n := hn (k, v) List.mem_cons_self
    by_cases hlt : n < k
    · simp only [Memory.insert, hlt, if_true]
      refine .cons (fun d hd => ?_) h
      rcases List.mem_cons.mp hd with rfl | hd
      · exact hlt
      · exact Nat.lt_trans hlt (hall d hd)
    · simp only [Memory.insert, hlt, if_false]
      refine .cons (fun d hd => ?_) (ih hrest fun d hd => hn d (List.mem_cons_of_mem _ hd))
      rcases Memory.mem_insert hd with rfl | hd
      · exact Nat.lt_of_le_of_ne (Nat.not_lt.mp hlt) hk
      · exact hall d hd

theorem Memory.wf_clear : Memory.clear.wf := ⟨.nil, by simp [Memory.clear]⟩

/-- A write keeps the canonical form. -/
theorem Memory.wf_write {m : Memory} (addr : Word) (v : Byte) (h : m.wf) : (m.write addr v).wf := by
  by_cases hv : v = Memory.unlisted
  · simp only [Memory.write, hv, if_true]
    exact ⟨Memory.rising_erase _ h.1, fun c hc => h.2 c (Memory.mem_erase hc).1⟩
  · simp only [Memory.write, hv, if_false]
    refine ⟨Memory.rising_insert v (Memory.rising_erase _ h.1) fun c hc => (Memory.mem_erase hc).2, ?_⟩
    intro c hc
    rcases Memory.mem_insert hc with rfl | hc
    · exact ⟨addr.isLt, hv⟩
    · exact h.2 c (Memory.mem_erase hc).1

/-- The host's writes of a list of bytes keep the canonical form. -/
theorem Memory.wf_writeBytes {m : Memory} (addr : Word) (bs : List Byte) (h : m.wf) :
    (m.writeBytes addr bs).wf := by
  induction bs generalizing m addr with
  | nil => exact h
  | cons b bs ih => exact ih _ (Memory.wf_write addr b h)

theorem Memory.wf_writeWord {s : State} (addr w : Word) (h : s.mem.wf) : (writeWord addr w s).mem.wf :=
  Memory.wf_write _ _ (Memory.wf_write _ _ h)

/-- Reset's memory is canonical. -/
theorem Memory.wf_reset : State.reset.mem.wf := Memory.wf_clear

end Sys2Proof.Machine
end

