-- ==== Sys2Proof/Laws/State.lean ====
section
/-! SUPPORT. One lemma per field per update of State: what each shared operation makes of each field. No later proof
unfolds a record update of these operations. -/

namespace Sys2Proof.Machine

/-! ### `charge` -/

@[simp] theorem charge_pc (n : Int) (s : State) : (charge n s).pc = s.pc := rfl
@[simp] theorem charge_sp (n : Int) (s : State) : (charge n s).sp = s.sp := rfl
@[simp] theorem charge_a (n : Int) (s : State) : (charge n s).a = s.a := rfl
@[simp] theorem charge_x (n : Int) (s : State) : (charge n s).x = s.x := rfl
@[simp] theorem charge_y (n : Int) (s : State) : (charge n s).y = s.y := rfl
@[simp] theorem charge_p (n : Int) (s : State) : (charge n s).p = s.p := rfl
@[simp] theorem charge_mem (n : Int) (s : State) : (charge n s).mem = s.mem := rfl
@[simp] theorem charge_budget (n : Int) (s : State) : (charge n s).budget = s.budget - n := rfl
@[simp] theorem charge_diag (n : Int) (s : State) : (charge n s).diag = s.diag := rfl

/-! ### `advanceByte` -/

@[simp] theorem advanceByte_pc (s : State) : (advanceByte s).pc = inc16 s.pc := rfl
@[simp] theorem advanceByte_sp (s : State) : (advanceByte s).sp = s.sp := rfl
@[simp] theorem advanceByte_a (s : State) : (advanceByte s).a = s.a := rfl
@[simp] theorem advanceByte_x (s : State) : (advanceByte s).x = s.x := rfl
@[simp] theorem advanceByte_y (s : State) : (advanceByte s).y = s.y := rfl
@[simp] theorem advanceByte_p (s : State) : (advanceByte s).p = s.p := rfl
@[simp] theorem advanceByte_mem (s : State) : (advanceByte s).mem = s.mem := rfl
@[simp] theorem advanceByte_budget (s : State) : (advanceByte s).budget = s.budget - 1 := rfl
@[simp] theorem advanceByte_diag (s : State) : (advanceByte s).diag = s.diag := rfl

/-! ### `advanceWord` -/

@[simp] theorem advanceWord_pc (s : State) : (advanceWord s).pc = addTwo16 s.pc := rfl
@[simp] theorem advanceWord_sp (s : State) : (advanceWord s).sp = s.sp := rfl
@[simp] theorem advanceWord_a (s : State) : (advanceWord s).a = s.a := rfl
@[simp] theorem advanceWord_x (s : State) : (advanceWord s).x = s.x := rfl
@[simp] theorem advanceWord_y (s : State) : (advanceWord s).y = s.y := rfl
@[simp] theorem advanceWord_p (s : State) : (advanceWord s).p = s.p := rfl
@[simp] theorem advanceWord_mem (s : State) : (advanceWord s).mem = s.mem := rfl
@[simp] theorem advanceWord_budget (s : State) : (advanceWord s).budget = s.budget - 2 := rfl
@[simp] theorem advanceWord_diag (s : State) : (advanceWord s).diag = s.diag := rfl

/-! ### `writeWord` -/

@[simp] theorem writeWord_pc (addr w : Word) (s : State) : (writeWord addr w s).pc = s.pc := rfl
@[simp] theorem writeWord_sp (addr w : Word) (s : State) : (writeWord addr w s).sp = s.sp := rfl
@[simp] theorem writeWord_a (addr w : Word) (s : State) : (writeWord addr w s).a = s.a := rfl
@[simp] theorem writeWord_x (addr w : Word) (s : State) : (writeWord addr w s).x = s.x := rfl
@[simp] theorem writeWord_y (addr w : Word) (s : State) : (writeWord addr w s).y = s.y := rfl
@[simp] theorem writeWord_p (addr w : Word) (s : State) : (writeWord addr w s).p = s.p := rfl
@[simp] theorem writeWord_mem (addr w : Word) (s : State) : (writeWord addr w s).mem = (s.mem.write addr (lowByte w)).write (inc16 addr) (highByte w) := rfl
@[simp] theorem writeWord_budget (addr w : Word) (s : State) : (writeWord addr w s).budget = s.budget - 2 := rfl
@[simp] theorem writeWord_diag (addr w : Word) (s : State) : (writeWord addr w s).diag = s.diag := rfl

/-! ### `setZNWith` -/

@[simp] theorem setZNWith_pc (f : FlagBits) (v : Byte) (s : State) : (setZNWith f v s).pc = s.pc := rfl
@[simp] theorem setZNWith_sp (f : FlagBits) (v : Byte) (s : State) : (setZNWith f v s).sp = s.sp := rfl
@[simp] theorem setZNWith_a (f : FlagBits) (v : Byte) (s : State) : (setZNWith f v s).a = s.a := rfl
@[simp] theorem setZNWith_x (f : FlagBits) (v : Byte) (s : State) : (setZNWith f v s).x = s.x := rfl
@[simp] theorem setZNWith_y (f : FlagBits) (v : Byte) (s : State) : (setZNWith f v s).y = s.y := rfl
@[simp] theorem setZNWith_p (f : FlagBits) (v : Byte) (s : State) : (setZNWith f v s).p = updateZN f v s.p := rfl
@[simp] theorem setZNWith_mem (f : FlagBits) (v : Byte) (s : State) : (setZNWith f v s).mem = s.mem := rfl
@[simp] theorem setZNWith_budget (f : FlagBits) (v : Byte) (s : State) : (setZNWith f v s).budget = s.budget := rfl
@[simp] theorem setZNWith_diag (f : FlagBits) (v : Byte) (s : State) : (setZNWith f v s).diag = s.diag := rfl

/-! ### `setZN` -/

@[simp] theorem setZN_pc (v : Byte) (s : State) : (setZN v s).pc = s.pc := rfl
@[simp] theorem setZN_sp (v : Byte) (s : State) : (setZN v s).sp = s.sp := rfl
@[simp] theorem setZN_a (v : Byte) (s : State) : (setZN v s).a = s.a := rfl
@[simp] theorem setZN_x (v : Byte) (s : State) : (setZN v s).x = s.x := rfl
@[simp] theorem setZN_y (v : Byte) (s : State) : (setZN v s).y = s.y := rfl
@[simp] theorem setZN_p (v : Byte) (s : State) : (setZN v s).p = updateZN flagBits v s.p := rfl
@[simp] theorem setZN_mem (v : Byte) (s : State) : (setZN v s).mem = s.mem := rfl
@[simp] theorem setZN_budget (v : Byte) (s : State) : (setZN v s).budget = s.budget := rfl
@[simp] theorem setZN_diag (v : Byte) (s : State) : (setZN v s).diag = s.diag := rfl

/-! ### `emitDiag` -/

@[simp] theorem emitDiag_pc (op : Byte) (addr : Word) (s : State) : (emitDiag op addr s).pc = s.pc := rfl
@[simp] theorem emitDiag_sp (op : Byte) (addr : Word) (s : State) : (emitDiag op addr s).sp = s.sp := rfl
@[simp] theorem emitDiag_a (op : Byte) (addr : Word) (s : State) : (emitDiag op addr s).a = s.a := rfl
@[simp] theorem emitDiag_x (op : Byte) (addr : Word) (s : State) : (emitDiag op addr s).x = s.x := rfl
@[simp] theorem emitDiag_y (op : Byte) (addr : Word) (s : State) : (emitDiag op addr s).y = s.y := rfl
@[simp] theorem emitDiag_p (op : Byte) (addr : Word) (s : State) : (emitDiag op addr s).p = s.p := rfl
@[simp] theorem emitDiag_mem (op : Byte) (addr : Word) (s : State) : (emitDiag op addr s).mem = s.mem := rfl
@[simp] theorem emitDiag_budget (op : Byte) (addr : Word) (s : State) : (emitDiag op addr s).budget = s.budget := rfl
@[simp] theorem emitDiag_diag (op : Byte) (addr : Word) (s : State) : (emitDiag op addr s).diag = s.diag ++ [(op, addr)] := rfl

/-! ### `pushWord` -/

@[simp] theorem pushWord_pc (w : Word) (s : State) : (pushWord w s).pc = s.pc := rfl
@[simp] theorem pushWord_sp (w : Word) (s : State) : (pushWord w s).sp = addTwo16 s.sp := rfl
@[simp] theorem pushWord_a (w : Word) (s : State) : (pushWord w s).a = s.a := rfl
@[simp] theorem pushWord_x (w : Word) (s : State) : (pushWord w s).x = s.x := rfl
@[simp] theorem pushWord_y (w : Word) (s : State) : (pushWord w s).y = s.y := rfl
@[simp] theorem pushWord_p (w : Word) (s : State) : (pushWord w s).p = s.p := rfl
@[simp] theorem pushWord_mem (w : Word) (s : State) : (pushWord w s).mem = (s.mem.write s.sp (lowByte w)).write (inc16 s.sp) (highByte w) := rfl
@[simp] theorem pushWord_budget (w : Word) (s : State) : (pushWord w s).budget = s.budget - 2 := rfl
@[simp] theorem pushWord_diag (w : Word) (s : State) : (pushWord w s).diag = s.diag := rfl

/-! ### `hostReset` -/

@[simp] theorem hostReset_pc (s : State) : (hostReset s).pc = 0xFFFC := rfl
@[simp] theorem hostReset_sp (s : State) : (hostReset s).sp = 0x0100 := rfl
@[simp] theorem hostReset_a (s : State) : (hostReset s).a = 0 := rfl
@[simp] theorem hostReset_x (s : State) : (hostReset s).x = 0 := rfl
@[simp] theorem hostReset_y (s : State) : (hostReset s).y = 0 := rfl
@[simp] theorem hostReset_p (s : State) : (hostReset s).p = 0 := rfl
@[simp] theorem hostReset_mem (s : State) : (hostReset s).mem = Memory.clear := rfl
@[simp] theorem hostReset_budget (s : State) : (hostReset s).budget = s.budget := rfl
@[simp] theorem hostReset_diag (s : State) : (hostReset s).diag = s.diag := rfl

/-! ### `hostWrite` -/

@[simp] theorem hostWrite_pc (addr : Word) (v : Byte) (s : State) : (hostWrite addr v s).pc = s.pc := rfl
@[simp] theorem hostWrite_sp (addr : Word) (v : Byte) (s : State) : (hostWrite addr v s).sp = s.sp := rfl
@[simp] theorem hostWrite_a (addr : Word) (v : Byte) (s : State) : (hostWrite addr v s).a = s.a := rfl
@[simp] theorem hostWrite_x (addr : Word) (v : Byte) (s : State) : (hostWrite addr v s).x = s.x := rfl
@[simp] theorem hostWrite_y (addr : Word) (v : Byte) (s : State) : (hostWrite addr v s).y = s.y := rfl
@[simp] theorem hostWrite_p (addr : Word) (v : Byte) (s : State) : (hostWrite addr v s).p = s.p := rfl
@[simp] theorem hostWrite_mem (addr : Word) (v : Byte) (s : State) : (hostWrite addr v s).mem = s.mem.write addr v := rfl
@[simp] theorem hostWrite_budget (addr : Word) (v : Byte) (s : State) : (hostWrite addr v s).budget = s.budget := rfl
@[simp] theorem hostWrite_diag (addr : Word) (v : Byte) (s : State) : (hostWrite addr v s).diag = s.diag := rfl

/-! ### The reading primitives: the value and the state -/

@[simp] theorem fetchByte_value (s : State) : (fetchByte s).1 = s.mem.read s.pc := rfl
@[simp] theorem fetchByte_state (s : State) : (fetchByte s).2 = advanceByte s := rfl
@[simp] theorem fetchWord_value (s : State) :
    (fetchWord s).1 = cat (s.mem.read (inc16 s.pc)) (s.mem.read s.pc) := rfl
@[simp] theorem fetchWord_state (s : State) : (fetchWord s).2 = advanceWord s := rfl
@[simp] theorem readByteZP_value (zp : Byte) (s : State) :
    (readByteZP zp s).1 = s.mem.read (zext16 zp) := rfl
@[simp] theorem readByteZP_state (zp : Byte) (s : State) : (readByteZP zp s).2 = charge 1 s := rfl

/-! ### The state after construction and after reset -/

theorem reset_eq_hostReset_construct : State.reset = hostReset State.construct := rfl

end Sys2Proof.Machine
end

