-- ==== Sys2Proof/Laws/Exec.lean ====
section
/-! SUPPORT. One spec lemma per meaning: the whole next state, in terms of the state before the opcode fetch. Later
proofs cite these and do not unfold a meaning. -/

namespace Sys2Proof.Machine

/-! ### The loads, in any flag layout -/

/-- What the common end of the loads makes of a state with a value. -/
theorem loadAWith_eq (f : FlagBits) (v : Byte) (s : State) :
    loadAWith f (v, s) = { s with a := v, p := updateZN f v s.p } := rfl

theorem execLdaImmWith_eq (f : FlagBits) (v : Byte) (s : State) :
    execLdaImmWith f v s = .next { s with
      pc := s.pc + 2, a := v, p := updateZN f v s.p, budget := s.budget - 2 } := by
  have hb : s.budget - 1 - 1 = s.budget - 2 := by omega
  simp [execLdaImmWith, operandImmediate, afterOperandByte, advanceByte, charge, loadAWith_eq,
    inc16_inc16, hb]

theorem execLdaZpWith_eq (f : FlagBits) (zp : Byte) (s : State) :
    execLdaZpWith f zp s = .next { s with
      pc := s.pc + 2
      a := s.mem.read (zext16 zp)
      p := updateZN f (s.mem.read (zext16 zp)) s.p
      budget := s.budget - 3 } := by
  have hb : s.budget - 1 - 1 - 1 = s.budget - 3 := by omega
  simp [execLdaZpWith, operandZeroPage, readByteZP, afterOperandByte, advanceByte, charge,
    loadAWith_eq, inc16_inc16, hb]

theorem execLdaZpXWith_eq (f : FlagBits) (zp : Byte) (s : State) :
    execLdaZpXWith f zp s = .next { s with
      pc := s.pc + 2
      a := s.mem.read (zext16 (add8 zp s.x))
      p := updateZN f (s.mem.read (zext16 (add8 zp s.x))) s.p
      budget := s.budget - 4 } := by
  have hb : s.budget - 1 - 1 - 1 - 1 = s.budget - 4 := by omega
  simp [execLdaZpXWith, operandZeroPageX, zeroPageXAddr, readByteZP, afterOperandByte, advanceByte,
    charge, loadAWith_eq, inc16_inc16, hb]

/-! ### The loads at the machine's flag positions, the jump and the unknown opcode -/

theorem execLdaImm_eq (v : Byte) (s : State) :
    execLdaImm v s = .next { s with
      pc := s.pc + 2, a := v, p := updateZN flagBits v s.p, budget := s.budget - 2 } :=
  execLdaImmWith_eq flagBits v s

theorem execLdaZp_eq (zp : Byte) (s : State) :
    execLdaZp zp s = .next { s with
      pc := s.pc + 2
      a := s.mem.read (zext16 zp)
      p := updateZN flagBits (s.mem.read (zext16 zp)) s.p
      budget := s.budget - 3 } :=
  execLdaZpWith_eq flagBits zp s

theorem execLdaZpX_eq (zp : Byte) (s : State) :
    execLdaZpX zp s = .next { s with
      pc := s.pc + 2
      a := s.mem.read (zext16 (add8 zp s.x))
      p := updateZN flagBits (s.mem.read (zext16 (add8 zp s.x))) s.p
      budget := s.budget - 4 } :=
  execLdaZpXWith_eq flagBits zp s

/-- JSR pushes the address of its own last byte. -/
theorem returnAddress_eq (s : State) : returnAddress s = s.pc + 2 := by
  show dec16 (addTwo16 (inc16 s.pc)) = _
  rw [addTwo16_inc16, dec16_add_three]

theorem execJsrAbs_eq (target : Word) (s : State) :
    execJsrAbs target s = .next { s with
      pc := target
      sp := s.sp + 2
      mem := (writeWord s.sp (s.pc + 2) s).mem
      budget := s.budget - 6 } := by
  have hb : s.budget - 1 - 2 - 2 - 1 = s.budget - 6 := by omega
  simp [execJsrAbs, returnAddress_eq, pushWord, writeWord, advanceWord, advanceByte, charge,
    operandAbsolute, addTwo16, hb]

theorem execUnknown_eq (op : Byte) (s : State) :
    execUnknown op s = .next { s with
      pc := s.pc + 1, budget := s.budget - 1, diag := s.diag ++ [(op, s.pc)] } := rfl

/-! ### Dispatch -/

@[simp] theorem params_opcodes : params.opcodes = opcodes := rfl
@[simp] theorem params_flagBits : params.flagBits = flagBits := rfl

/-- `exec` is the parametric machine's at R5's defaults. -/
theorem exec_eq_execWith (i : Instr) (s : State) : exec i s = execWith params i s := by
  cases i <;> rfl

/-- `step` is the parametric machine's at R5's defaults. -/
theorem step_eq_stepWith (s : State) : step s = stepWith params s :=
  exec_eq_execWith (fetchInstr s) s

/-- Every meaning answers a next state, under every choice of the parameters. -/
theorem execWith_total (c : Params) (i : Instr) (s : State) : ∃ t, execWith c i s = .next t := by
  cases i <;> exact ⟨_, rfl⟩

/-- Every meaning answers a next state. -/
theorem exec_total (i : Instr) (s : State) : ∃ t, exec i s = .next t := by
  cases i <;> exact ⟨_, rfl⟩

/-- Everything an instruction can do, said once, under every choice of the parameters. -/
theorem execWith_next_cases {c : Params} {i : Instr} {s t : State} (h : execWith c i s = .next t) :
    (∃ v, i = .ldaImm v ∧ t = { s with
      pc := s.pc + 2, a := v, p := updateZN c.flagBits v s.p, budget := s.budget - 2 }) ∨
    (∃ zp, i = .ldaZp zp ∧ t = { s with
      pc := s.pc + 2
      a := s.mem.read (zext16 zp)
      p := updateZN c.flagBits (s.mem.read (zext16 zp)) s.p
      budget := s.budget - 3 }) ∨
    (∃ zp, i = .ldaZpX zp ∧ t = { s with
      pc := s.pc + 2
      a := s.mem.read (zext16 (add8 zp s.x))
      p := updateZN c.flagBits (s.mem.read (zext16 (add8 zp s.x))) s.p
      budget := s.budget - 4 }) ∨
    (∃ target, i = .jsrAbs target ∧ t = { s with
      pc := target
      sp := s.sp + 2
      mem := (writeWord s.sp (s.pc + 2) s).mem
      budget := s.budget - 6 }) ∨
    (∃ op, i = .unknown op ∧ t = { s with
      pc := s.pc + 1, budget := s.budget - 1, diag := s.diag ++ [(op, s.pc)] }) := by
  cases i with
  | ldaImm v =>
    exact .inl ⟨v, rfl, (Host.Outcome.next.inj ((execLdaImmWith_eq _ v s).symm.trans h)).symm⟩
  | ldaZp zp =>
    exact .inr (.inl ⟨zp, rfl, (Host.Outcome.next.inj ((execLdaZpWith_eq _ zp s).symm.trans h)).symm⟩)
  | ldaZpX zp =>
    exact .inr (.inr (.inl
      ⟨zp, rfl, (Host.Outcome.next.inj ((execLdaZpXWith_eq _ zp s).symm.trans h)).symm⟩))
  | jsrAbs w =>
    exact .inr (.inr (.inr (.inl
      ⟨w, rfl, (Host.Outcome.next.inj ((execJsrAbs_eq w s).symm.trans h)).symm⟩)))
  | unknown op =>
    exact .inr (.inr (.inr (.inr
      ⟨op, rfl, (Host.Outcome.next.inj ((execUnknown_eq op s).symm.trans h)).symm⟩)))

/-- Everything an instruction can do at the machine's parameters. -/
theorem exec_next_cases {i : Instr} {s t : State} (h : exec i s = .next t) :
    (∃ v, i = .ldaImm v ∧ t = { s with
      pc := s.pc + 2, a := v, p := updateZN flagBits v s.p, budget := s.budget - 2 }) ∨
    (∃ zp, i = .ldaZp zp ∧ t = { s with
      pc := s.pc + 2
      a := s.mem.read (zext16 zp)
      p := updateZN flagBits (s.mem.read (zext16 zp)) s.p
      budget := s.budget - 3 }) ∨
    (∃ zp, i = .ldaZpX zp ∧ t = { s with
      pc := s.pc + 2
      a := s.mem.read (zext16 (add8 zp s.x))
      p := updateZN flagBits (s.mem.read (zext16 (add8 zp s.x))) s.p
      budget := s.budget - 4 }) ∨
    (∃ target, i = .jsrAbs target ∧ t = { s with
      pc := target
      sp := s.sp + 2
      mem := (writeWord s.sp (s.pc + 2) s).mem
      budget := s.budget - 6 }) ∨
    (∃ op, i = .unknown op ∧ t = { s with
      pc := s.pc + 1, budget := s.budget - 1, diag := s.diag ++ [(op, s.pc)] }) := by
  rw [exec_eq_execWith] at h
  simpa only [params_flagBits] using execWith_next_cases h

end Sys2Proof.Machine
end

