-- ==== Sys2Proof/Laws/Execute.lean ====
section
/-! SUPPORT. One round of the execute loop, and what one step takes off the budget. -/

namespace Sys2Proof.Machine

theorem cost_bounds (i : Instr) : 1 ≤ cost i ∧ cost i ≤ 6 := by
  cases i <;> simp [cost, costRow, CostRow.total]

/-- A step takes the cost of the instruction it runs off the budget, under every choice of the parameters. -/
theorem stepWith_budget {c : Params} {s t : State} (h : stepWith c s = .next t) :
    t.budget = s.budget - cost (fetchInstrWith c.opcodes s) := by
  rcases execWith_next_cases h with
    ⟨_, e, rfl⟩ | ⟨_, e, rfl⟩ | ⟨_, e, rfl⟩ | ⟨_, e, rfl⟩ | ⟨_, e, rfl⟩ <;>
    rw [e] <;> rfl

/-- One round of the loop while the budget lasts. -/
theorem executeLoopWith_succ {c : Params} (fuel : Nat) {s t : State} (hb : 0 < s.budget)
    (h : stepWith c s = .next t) :
    executeLoopWith c (fuel + 1) s = executeLoopWith c fuel t ∧
    executedLoopWith c (fuel + 1) s =
      fetchInstrWith c.opcodes s :: executedLoopWith c fuel t := by
  simp [executeLoopWith, executedLoopWith, hb, h]

end Sys2Proof.Machine
end

