-- ==== Sys2Proof/Laws/Flags.lean ====
section
/-! SUPPORT. What `SetZN` makes of each bit of P. -/

namespace Sys2Proof.Machine

theorem flagBits_admissible : flagBits.Admissible := by decide

/-- Each bit of a byte after one bit is replaced. -/
theorem setBit_getLsbD (p : Byte) (k j : Fin 8) (b : Bool) :
    (setBit p k b).getLsbD j = if j = k then b else p.getLsbD j := by
  have hone : (1#8 <<< k.val).getLsbD j = decide (j = k) := by revert j k; decide
  cases b
  · have hnot : (~~~(1#8 <<< k.val)).getLsbD j = !decide (j = k) := by
      rw [BitVec.getLsbD_not, hone]; simp
    rw [show setBit p k false = p &&& ~~~(1#8 <<< k.val) from rfl, BitVec.getLsbD_and, hnot]
    by_cases h : j = k <;> simp [h]
  · rw [show setBit p k true = p ||| (1#8 <<< k.val) from rfl, BitVec.getLsbD_or, hone]
    by_cases h : j = k <;> simp [h]

end Sys2Proof.Machine
end

