-- ==== Sys2Proof/Laws/PerInstr.lean ====
section
/-! SUPPORT. The per-instruction family `EncodedLength`: every instruction's encoding begins with one opcode byte and is
as long as the instruction's format says (spec 30_encoding.md R50). -/

namespace Sys2Proof.Laws.EncodedLength

/-- Under every choice of the opcode parameters the encoding has `Instr.length` bytes, and that is 1, 2 or 3. -/
def Statement (i : Instr) : Prop :=
  ∀ o : OpcodeParams, (encodeWith o i).length = i.length ∧ 1 ≤ i.length ∧ i.length ≤ 3

theorem ldaImm (imm : Byte) : Statement (.ldaImm imm) := by
  intro o; simp [encodeWith, Instr.length]

theorem ldaZp (zp : Byte) : Statement (.ldaZp zp) := by
  intro o; simp [encodeWith, Instr.length]

theorem ldaZpX (zp : Byte) : Statement (.ldaZpX zp) := by
  intro o; simp [encodeWith, Instr.length]

theorem jsrAbs (target : Word) : Statement (.jsrAbs target) := by
  intro o; simp [encodeWith, Instr.length]

theorem unknown (op : Byte) : Statement (.unknown op) := by
  intro o; simp [encodeWith, Instr.length]

end Sys2Proof.Laws.EncodedLength
end

