-- ==== Sys2Proof/Tests/Slice0.lean ====
section
/-! SUPPORT. Tests of the model against the spec's own worked examples and vectors (spec 95_test_vectors.md; each test
names its row), and for every statement with hypotheses a concrete witness that meets them together. -/

namespace Sys2Proof.Tests.Slice0

open Sys2Proof.Machine

/-- A small state: PC, budget 10 as in 95_test_vectors.md Part 2, the given bytes in memory, everything else zero. -/
def small (pc : Word) (cells : List (Word × Byte)) : State :=
  { State.construct with
    pc := pc
    budget := 10
    mem := cells.foldl (fun m c => m.write c.1 c.2) [] }

/-- What one part of the next state is, if there is a next state. -/
def look {α : Type} (o : Outcome) (f : State → α) : Option α :=
  match o with
  | .next t => some (f t)
  | .fault _ => none
  | .refused _ => none

/-! ### Well-formedness: the one check, and terms it refuses -/

theorem test_unknown_of_lda_imm_byte_is_ill_formed : (Instr.unknown 0xA9).wellFormed = false := by decide
theorem test_unknown_of_lda_zp_byte_is_ill_formed : (Instr.unknown 0xA5).wellFormed = false := by decide
theorem test_unknown_of_lda_zpx_byte_is_ill_formed : (Instr.unknown 0xB5).wellFormed = false := by decide
theorem test_unknown_of_jsr_byte_is_ill_formed : (Instr.unknown 0x20).wellFormed = false := by decide
theorem test_unknown_of_zero_is_well_formed : (Instr.unknown 0x00).wellFormed = true := by decide

/-! ### Decoding: words written out bit by bit from opcode_table.json's `encoding` -/

theorem test_decode_lda_imm : decode [0b10101001, 0b10000100] = .instr (.ldaImm 0x84) [] := by decide
theorem test_decode_lda_zp : decode [0b10100101, 0b00010000] = .instr (.ldaZp 0x10) [] := by decide
theorem test_decode_lda_zpx : decode [0b10110101, 0b11110000] = .instr (.ldaZpX 0xF0) [] := by decide
theorem test_decode_jsr :
    decode [0b00100000, 0b00110100, 0b00010010] = .instr (.jsrAbs 0x1234) [] := by decide
theorem test_decode_unknown : decode [0b11101010, 0x01] = .instr (.unknown 0xEA) [0x01] := by decide
theorem test_decode_short_jsr : decode [0x20, 0x34] = .rejected (.truncated 0x20 3) := by decide
theorem test_decode_empty : decode [] = .rejected .empty := by decide
theorem test_encode_jsr : encode (.jsrAbs 0x1234) = [0x20, 0x34, 0x12] := by decide

theorem test_table_word_lda_imm : decodeTableWord 16 0x84A9 = some (.ldaImm 0x84) := by decide
theorem test_table_word_jsr : decodeTableWord 24 0x123420 = some (.jsrAbs 0x1234) := by decide
theorem test_table_word_unknown : decodeTableWord 8 0x00 = some (.unknown 0x00) := by decide
theorem test_table_word_runs_after_reset :
    look (step (State.reset.withFetchWord 16 0x84A9)) (fun t => (t.a, t.p, t.pc)) =
      some (0x84, 0x80, 0xFFFE) := by decide

/-! ### Load-accumulator, immediate -/

/-- V-LDA-5: Zero left set by an earlier load is cleared (assignment, not sticky OR). -/
theorem test_lda_imm_clears_zero :
    look (step { small 0x0200 [(0x0200, 0xA9), (0x0201, 0x01)] with p := 0x02 })
      (fun t => (t.a, t.p, t.pc, t.budget)) = some (0x01, 0x00, 0x0202, 8) := by decide

/-- V-LDA-7 at V-LDA-9's address: reserved bits are kept, and the operand of an opcode at 0xFFFF stands at 0x0000. -/
theorem test_lda_imm_keeps_reserved_bits_across_the_top :
    look (step { small 0xFFFF [(0xFFFF, 0xA9), (0x0000, 0x00)] with p := 0x7D })
      (fun t => (t.a, t.p, t.pc, t.budget)) = some (0x00, 0x7F, 0x0001, 8) := by decide

/-! ### Load-accumulator, zero-page -/

/-- V-LDZ-2: the address is 0x00FF, not 0x01FF. -/
theorem test_lda_zp_stays_in_zero_page :
    look (step (small 0x0200 [(0x0200, 0xA5), (0x0201, 0xFF), (0x00FF, 0x01), (0x01FF, 0xEE)]))
      (fun t => (t.a, t.p, t.pc, t.budget)) = some (0x01, 0x00, 0x0202, 7) := by decide

/-- V-LDZ-4: the data cell is the instruction's own operand byte. -/
theorem test_lda_zp_reads_its_own_operand :
    look (step (small 0x0000 [(0x0000, 0xA5), (0x0001, 0x01)]))
      (fun t => (t.a, t.p, t.pc, t.budget)) = some (0x01, 0x00, 0x0002, 7) := by decide

/-! ### Load-accumulator, zero-page,X -/

/-- V-LDX-3: the index sum wraps within the zero page. -/
theorem test_lda_zpx_wraps :
    look (step { small 0x0300 [(0x0300, 0xB5), (0x0301, 0xF0), (0x0010, 0x9A), (0x0110, 0x11)] with x := 0x20 })
      (fun t => (t.a, t.p, t.x, t.pc, t.budget)) = some (0x9A, 0x80, 0x20, 0x0302, 6) := by decide

/-- V-LDX-2: X is added, not ignored. -/
theorem test_lda_zpx_adds_x :
    look (step { small 0x0300 [(0x0300, 0xB5), (0x0301, 0x10), (0x0015, 0x33), (0x0010, 0x44)] with x := 0x05 })
      (fun t => (t.a, t.p, t.x, t.budget)) = some (0x33, 0x00, 0x05, 6) := by decide

/-! ### Jump-to-subroutine -/

/-- S-C, first instruction: JSR $4242 after reset. -/
theorem test_jsr_scenario_c :
    look (step { State.reset with
        budget := 8, mem := (small 0 [(0xFFFC, 0x20), (0xFFFD, 0x42), (0xFFFE, 0x42)]).mem })
      (fun t => (t.pc, t.sp, t.mem.read 0x0100, t.mem.read 0x0101, t.budget)) =
      some (0x4242, 0x0102, 0xFE, 0xFF, 2) := by decide

/-- V-JSR-7: the push lands on the JSR's own operand bytes; the target was fetched before. -/
theorem test_jsr_push_on_own_operand :
    look (step { small 0x0200 [(0x0200, 0x20), (0x0201, 0x34), (0x0202, 0x12)] with sp := 0x0201 })
      (fun t => (t.pc, t.sp, t.mem.read 0x0201, t.mem.read 0x0202, t.budget)) =
      some (0x1234, 0x0203, 0x02, 0x02, 4) := by decide

/-! ### Unknown opcode -/

/-- V-UNK-3: at the top of memory; the historical return byte is unknown. -/
theorem test_unknown_at_the_top :
    look (step (small 0xFFFF [(0xFFFF, 0x60)])) (fun t => (t.pc, t.budget, t.diag)) =
      some (0x0000, 9, [(0x60, 0xFFFF)]) := by decide

/-- V-UNK-5: registers and flags are kept. -/
theorem test_unknown_keeps_registers :
    look (step { small 0x0200 [(0x0200, 0xFF)] with a := 0x99, p := 0x82, sp := 0x0104 })
      (fun t => (t.pc, t.a, t.p, t.sp)) = some (0x0201, 0x99, 0x82, 0x0104) := by decide

/-! ### Reset, the word write and the execute loop -/

/-- S-E. -/
theorem test_reset :
    (hostReset ⟨0x1234, 0xBEEF, 0x55, 0x01, 0x02, 0xFF, [(0x0000, 0x99), (0xFFFC, 0xA9)], 3, [(0xFF, 0x0200)]⟩) =
      ⟨0xFFFC, 0x0100, 0x00, 0x00, 0x00, 0x00, [], 3, [(0xFF, 0x0200)]⟩ := by decide

/-- V-PRIM-7: the high byte goes to 0x0000. -/
theorem test_write_word_at_the_top :
    (writeWord 0xFFFF 0xABCD (small 0x0200 [])).mem = [(0x0000, 0xAB), (0xFFFF, 0xCD)] := by decide

/-- V-EXE-3: `Execute(1)` completes the load and ends at budget -1. -/
theorem test_execute_overruns :
    look (execute 1 { State.reset with mem := [(0xFFFC, 0xA9), (0xFFFD, 0x01)] })
      (fun t => (t.a, t.pc, t.p, t.budget)) = some (0x01, 0xFFFE, 0x00, -1) := by decide

/-- V-EXE-2: `Execute(-3)` runs nothing. -/
theorem test_execute_negative_budget :
    look (execute (-3) { State.reset with mem := [(0xFFFC, 0xA9), (0xFFFD, 0x01)] })
      (fun t => (t.a, t.pc, t.budget)) = some (0x00, 0xFFFC, -3) := by decide

/-! ### Witnesses: states and operands that meet a statement's hypotheses together -/

/-- The state the witnesses use: `LDA #$84` at the reset vector, after reset. -/
def loaded : State := { State.reset with mem := [(0xFFFC, 0xA9), (0xFFFD, 0x84)], budget := 2 }

/-- `JSR` whose push lands on its own operand bytes. -/
def jumping : State := { State.reset with sp := 0xFFFD, mem := [(0xFFFC, 0x20), (0xFFFE, 0x30)] }

/-- `loaded` after its one instruction. -/
def afterLoad : State := { loaded with pc := 0xFFFE, a := 0x84, p := 0x80, budget := 0 }

theorem witness_FirstInstructionStandsAtResetVector :
    (Instr.jsrAbs 0x4242).wellFormed = true ∧ (Instr.unknown 0xFF).wellFormed = true := by decide

theorem witness_WriteChangesOneCell :
    (0xFFFF : Word) ≠ 0x0000 ∧
    (∃ t, exec (.ldaZp 0x10) loaded = .next t) ∧ ∀ target, Instr.ldaZp 0x10 ≠ .jsrAbs target :=
  ⟨by decide, ⟨_, rfl⟩, nofun⟩

theorem witness_CanonicalMemoriesThatReadAlikeAreEqual :
    Memory.wf [(0x0000, 0x80), (0xFFFF, 0x01)] ∧
    ∀ addr : Word, Memory.read [(0x0000, 0x80), (0xFFFF, 0x01)] addr =
      Memory.read [(0x0000, 0x80), (0xFFFF, 0x01)] addr :=
  ⟨by decide, fun _ => rfl⟩

theorem witness_WordWriteRoundTripsLittleEndian :
    (0x0001 : Word) ≠ 0xFFFF ∧ (0x0001 : Word) ≠ 0xFFFF + 1 := by decide

theorem witness_HostWriteChangesOnlyItsCell : (0xFFFD : Word) ≠ 0xFFFC := by decide

theorem witness_SetZNAssignsTwoFlagsInAnyLayout :
    flagBits.Admissible ∧ (⟨0, 3⟩ : FlagBits).Admissible ∧
    (5 : Fin 8) ≠ flagBits.zeroBit ∧ (5 : Fin 8) ≠ flagBits.negBit := by decide

/-- Another admissible choice of the opcode parameters. -/
def otherOpcodes : OpcodeParams := ⟨0x00, 0x01, 0x02, 0xFF⟩

theorem witness_DecodeOfEncodeIsIdentity :
    opcodes.Admissible ∧ otherOpcodes.Admissible ∧
    (Instr.ldaImm 0xFF).wellFormedWith otherOpcodes = true ∧
    (Instr.unknown 0xA9).wellFormedWith otherOpcodes = true := by decide

theorem witness_EncodeOfDecodeIsIdentity :
    decodeWith otherOpcodes [0xFF, 0x34, 0x12, 0x00] = .instr (.jsrAbs 0x1234) [0x00] := by decide

theorem witness_DecoderRejectsOnlyShortLists :
    opcodes.Admissible ∧ decodeWith opcodes [0xA9] = .rejected (.truncated 0xA9 2) ∧
    decodeWith opcodes [] = .rejected .empty ∧
    decodeWith opcodes [0x20, 0x00] = .rejected (.truncated 0x20 3) := by decide

theorem witness_StepRunsTheDecodedInstruction :
    decode [loaded.mem.read loaded.pc, loaded.mem.read (loaded.pc + 1), loaded.mem.read (loaded.pc + 2)] =
      .instr (.ldaImm 0x84) [0x00] := by decide

theorem witness_StepRunsTheEncodedInstruction :
    (Instr.ldaImm 0x84).wellFormed = true ∧
    ∀ (k : Nat) (b : Byte), (encode (.ldaImm 0x84))[k]? = some b →
      loaded.mem.read (loaded.pc + BitVec.ofNat 16 k) = b := by
  refine ⟨by decide, fun k b h => ?_⟩
  match k, h with
  | 0, h => cases h; decide
  | 1, h => cases h; decide

theorem witness_FetchedTableWordIsExecuted : decodeTableWord 16 0xB5 = some (.ldaZpX 0x00) := by decide

theorem witness_UnknownOpcodeOnlyReportsAndGoesOn :
    opcodes.isKnown (State.reset.mem.read State.reset.pc) = false := by decide

theorem witness_EveryInstructionTakesItsCost : ∃ t, exec (.jsrAbs 0xFFFC) loaded = .next t := ⟨_, rfl⟩

theorem witness_InstructionsReadOnlyRegistersAndMemory :
    loaded.regFile = { loaded with budget := -5, diag := [(0xFF, 0x0200)] }.regFile ∧
    ∀ addr : Word, loaded.mem.read addr =
      ({ loaded with budget := -5, diag := [(0xFF, 0x0200)] } : State).mem.read addr :=
  ⟨rfl, fun _ => rfl⟩

theorem witness_AccumulatorIsWrittenByLoadsAndNeverRead :
    ((∃ t, exec (.ldaImm 0x84) loaded = .next t) ∧ isLoad (.ldaImm 0x84) = true) ∧
    ((∃ t, exec (.jsrAbs 0x0000) loaded = .next t) ∧ isLoad (.jsrAbs 0x0000) = false) :=
  ⟨⟨⟨_, rfl⟩, rfl⟩, ⟨⟨_, rfl⟩, rfl⟩⟩

theorem witness_IndexRegistersAreWrittenByResetOnly :
    (HostOp.execute 2 ≠ .reset ∧ hostOp (.execute 2) loaded = .next afterLoad) ∧
    (HostOp.write 0x0000 0xFF ≠ .reset ∧ ∃ t, hostOp (.write 0x0000 0xFF) loaded = .next t) ∧
    (∃ t, exec (.ldaZp 0xFF) loaded = .next t) ∧ ∀ zp, Instr.ldaZp 0xFF ≠ .ldaZpX zp :=
  ⟨⟨by decide, rfl⟩, ⟨by decide, ⟨_, rfl⟩⟩, ⟨_, rfl⟩, nofun⟩

theorem witness_FlagsAreWrittenByLoadsAndNeverRead :
    (∃ t, exec (.unknown 0x00) loaded = .next t) ∧ isLoad (.unknown 0x00) = false ∧
    isReservedBit 0 = true ∧ isReservedBit 6 = true :=
  ⟨⟨_, rfl⟩, rfl, by decide, by decide⟩

theorem witness_OnlyJsrTransfersControlOrMovesSp :
    (∃ t, exec (.jsrAbs 0xFFFF) loaded = .next t) ∧
    (∃ t, exec (.unknown 0x00) loaded = .next t) ∧ ∀ target, Instr.unknown 0x00 ≠ .jsrAbs target :=
  ⟨⟨_, rfl⟩, ⟨_, rfl⟩, nofun⟩

theorem witness_DiagnosticsNameExactlyUnknownOpcodes :
    opcodes.isKnown (loaded.mem.read loaded.pc) = true ∧
    opcodes.isKnown (afterLoad.mem.read afterLoad.pc) = false := by decide

theorem witness_JsrFetchesItsTargetBeforeThePush :
    jumping.mem.read jumping.pc = opcodes.jsrAbs ∧ jumping.sp = jumping.pc + 1 := by decide

theorem witness_PushedByteIsTheNextOpcode :
    opcodes.isKnown (lowByte (jumping.pc + 2)) = false := by decide

theorem witness_ExecuteWithNoBudgetRunsNothing : (0 : Int) ≤ 0 ∧ (-3 : Int) ≤ 0 := by decide

theorem witness_ExecuteIsTheWhileLoop : State.reset.budget ≤ 0 ∧ 0 < loaded.budget := by decide

theorem witness_ExecuteAccountsForEveryUnit :
    (0 : Int) < 1 ∧ 0 < (executed 1 loaded).length := by decide

theorem witness_SplitExecuteEqualsOneExecute :
    (0 : Int) ≤ 0 ∧ execute 2 loaded = .next afterLoad ∧ afterLoad.budget = 0 :=
  ⟨by decide, rfl, rfl⟩

theorem witness_CleanRunsExecuteKnownOpcodesOnly :
    execute 2 loaded = .next afterLoad ∧ CleanRun 2 loaded afterLoad :=
  ⟨rfl, rfl, rfl, rfl⟩

theorem loaded_inv : loaded.Inv where
  mem_wf := by decide
  x_zero := by decide
  y_zero := by decide
  reserved_zero := by decide
  not_zero_and_negative := by decide
  sp_even := by decide
  diag_unknown := by simp [loaded, State.reset]

theorem witness_StepKeepsTheInvariant : loaded.Inv ∧ step loaded = .next afterLoad := ⟨loaded_inv, rfl⟩

theorem witness_SessionsCompleteAndKeepTheInvariant : loaded.Inv := loaded_inv

/-! ### The machine at another choice of the parameters of R5 -/

/-- An admissible choice that differs from the default in every parameter. -/
def otherParams : Params := ⟨otherOpcodes, ⟨0, 3⟩⟩

/-- `loaded` in the encoding of `otherParams`: its `OPC_LDA_IMM` byte is 0x00. -/
def otherLoaded : State := { State.reset with mem := [(0xFFFD, 0x84)], budget := 2 }

/-- V-LDA-2's value, at `otherParams`: the opcode byte is 0x00 and Negative is bit 3. -/
theorem test_lda_imm_at_other_parameters :
    look (stepWith otherParams otherLoaded) (fun t => (t.a, t.p, t.pc, t.budget)) =
      some (0x84, 0x08, 0xFFFE, 0) := by decide

/-- 0xA9 is no known opcode at `otherParams`, so the step there reports it (R100). -/
theorem test_default_byte_is_unknown_at_other_parameters :
    look (stepWith otherParams loaded) (fun t => (t.a, t.pc, t.diag)) =
      some (0x00, 0xFFFD, [(0xA9, 0xFFFC)]) := by decide

theorem witness_InstructionsTakeEffectInAnyFlagLayout :
    params.flagBits.Admissible ∧ otherParams.flagBits.Admissible := by decide

theorem witness_StepRunsTheEncodedInstructionForAnyOpcodes :
    otherParams.opcodes.Admissible ∧ (Instr.ldaImm 0x84).wellFormedWith otherParams.opcodes = true ∧
    ∀ (k : Nat) (b : Byte), (encodeWith otherParams.opcodes (.ldaImm 0x84))[k]? = some b →
      otherLoaded.mem.read (otherLoaded.pc + BitVec.ofNat 16 k) = b := by
  refine ⟨by decide, by decide, fun k b h => ?_⟩
  match k, h with
  | 0, h => cases h; decide
  | 1, h => cases h; decide

theorem witness_ParametersMatterOnlyToEncodingAndFlagPlaces :
    params.Admissible ∧ otherParams.Admissible ∧
    isLoad (.ldaImm 0x84) = true ∧ isLoad (.jsrAbs 0xFFFF) = false := by decide

theorem witness_ExecuteAccountsForEveryUnitForAnyParameters :
    (0 : Int) < 1 ∧ 0 < (executedWith otherParams 1 otherLoaded).length := by decide

theorem other_loaded_inv : otherLoaded.InvWith otherParams where
  mem_wf := by decide
  x_zero := by decide
  y_zero := by decide
  reserved_zero := by decide
  not_zero_and_negative := by decide
  sp_even := by decide
  diag_unknown := by simp [otherLoaded, State.reset]

theorem witness_InvariantHoldsForAnyParameters :
    otherParams.Admissible ∧ otherLoaded.InvWith otherParams ∧
    stepWith otherParams otherLoaded = .next { otherLoaded with pc := 0xFFFE, a := 0x84, p := 0x08, budget := 0 } :=
  ⟨by decide, other_loaded_inv, rfl⟩

end Sys2Proof.Tests.Slice0
end

/-! How the instructions treat A (spec 10_state.md R13), each fact once for the loads and once for the other
instructions, and the proof of O28. -/

namespace Sys2Proof.Machine

/-- A load overwrites A before anything reads it, so it runs alike whatever A held. -/
theorem exec_setA_of_isLoad {i : Instr} (hi : isLoad i = true) (s : State) (a' : Byte) :
    exec i { s with a := a' } = exec i s := by
  cases i with
  | ldaImm v => exact (execLdaImm_eq v _).trans (execLdaImm_eq v s).symm
  | ldaZp zp => exact (execLdaZp_eq zp _).trans (execLdaZp_eq zp s).symm
  | ldaZpX zp => exact (execLdaZpX_eq zp _).trans (execLdaZpX_eq zp s).symm
  | jsrAbs _ | unknown _ => cases hi

/-- The flags a load leaves are `SetZN` of the A it leaves. -/
theorem exec_p_of_isLoad {i : Instr} {s t : State} (h : exec i s = .next t)
    (hi : isLoad i = true) : t.p = (setZN t.a s).p := by
  rcases exec_next_cases h with
    ⟨_, rfl, rfl⟩ | ⟨_, rfl, rfl⟩ | ⟨_, rfl, rfl⟩ | ⟨_, rfl, -⟩ | ⟨_, rfl, -⟩
  · rfl
  · rfl
  · rfl
  · cases hi
  · cases hi

/-- An instruction that is no load keeps A. -/
theorem exec_a_of_not_isLoad {i : Instr} {s t : State} (h : exec i s = .next t)
    (hi : isLoad i = false) : t.a = s.a := by
  rcases exec_next_cases h with
    ⟨_, rfl, -⟩ | ⟨_, rfl, -⟩ | ⟨_, rfl, -⟩ | ⟨_, -, rfl⟩ | ⟨_, -, rfl⟩
  · cases hi
  · cases hi
  · cases hi
  · rfl
  · rfl

/-- An instruction that is no load commutes with any other choice of A. -/
theorem exec_setA_of_not_isLoad {i : Instr} {s t : State} (h : exec i s = .next t)
    (hi : isLoad i = false) (a' : Byte) :
    exec i { s with a := a' } = .next { t with a := a' } := by
  rcases exec_next_cases h with
    ⟨_, rfl, -⟩ | ⟨_, rfl, -⟩ | ⟨_, rfl, -⟩ | ⟨target, rfl, rfl⟩ | ⟨op, rfl, rfl⟩
  · cases hi
  · cases hi
  · cases hi
  · exact execJsrAbs_eq target _
  · exact execUnknown_eq op _

/-- Settles O28: reset by its field lemma, the loads and the other instructions by their lemmas above. -/
theorem accumulatorIsWrittenByLoadsAndNeverRead :
    Obligations.AccumulatorIsWrittenByLoadsAndNeverRead := by
  refine ⟨hostReset_a, fun i s t a' h hi => ⟨?_, exec_p_of_isLoad h hi⟩,
    fun i s t a' h hi => ⟨exec_a_of_not_isLoad h hi, exec_setA_of_not_isLoad h hi a'⟩⟩
  rw [exec_setA_of_isLoad hi, h]

end Sys2Proof.Machine

/-! Who writes memory (spec 20_memory.md R32), and the proof of O5. -/

namespace Sys2Proof.Machine

/-- An instruction other than jump-to-subroutine leaves memory as it was. -/
theorem exec_mem_of_ne_jsrAbs {i : Instr} {s t : State} (h : exec i s = .next t)
    (hi : ∀ target, i ≠ .jsrAbs target) : t.mem = s.mem := by
  rcases exec_next_cases h with
    ⟨_, -, rfl⟩ | ⟨_, -, rfl⟩ | ⟨_, -, rfl⟩ | ⟨target, hjsr, -⟩ | ⟨_, -, rfl⟩
  · rfl
  · rfl
  · rfl
  · exact absurd hjsr (hi target)
  · rfl

/-- Settles O5: what a write does to the written and to every other cell, and the frame of the instructions that do not
push. -/
theorem writeChangesOneCell : Obligations.WriteChangesOneCell :=
  ⟨fun m addr v => ⟨m.read_write_same addr v, fun _ hne => m.read_write_other v hne⟩,
    fun _ _ _ h hi => exec_mem_of_ne_jsrAbs h hi⟩

end Sys2Proof.Machine

/-! What the zero-page read of spec 40_engine.md R67 returns and leaves unchanged, and the proof of O9. -/

namespace Sys2Proof.Machine

/-- Charging units touches no register. -/
@[simp] theorem charge_regFile (n : Int) (s : State) : (charge n s).regFile = s.regFile := rfl

/-- Settles O9: the address is the byte itself (`zext16_eq_ofNat`), and the state after the read is the state before it,
charged one unit. -/
theorem zeroPageReadUsesItsByteAsAddress : Obligations.ZeroPageReadUsesItsByteAsAddress := by
  intro zp s
  rw [readByteZP_value, readByteZP_state, zext16_eq_ofNat]
  exact ⟨rfl, charge_budget 1 s, charge_regFile 1 s, charge_mem 1 s, charge_diag 1 s⟩

end Sys2Proof.Machine

/-! The state after construction and the state after reset (spec 70_reset_and_hazards.md R120 and R122), and the proofs of
O1 and O3. -/

namespace Sys2Proof.Machine

/-- A host reset always succeeds. -/
@[simp] theorem hostOp_reset (s : State) : hostOp .reset s = .next (hostReset s) := rfl

/-- After a host reset every cell reads zero. -/
theorem hostReset_mem_read (s : State) (addr : Word) : (hostReset s).mem.read addr = 0 := by
  rw [hostReset_mem, Memory.read_clear]

/-- Construction lists no cell, as `MemClear` does. -/
@[simp] theorem construct_mem : State.construct.mem = Memory.clear := rfl

/-- Reset moves PC away from where construction left it. -/
theorem reset_pc_ne_construct_pc : State.reset.pc ≠ State.construct.pc := by decide

/-- Settles O1, field by field from the laws of `hostReset`. -/
theorem resetGivesCanonicalState : Obligations.ResetGivesCanonicalState := fun s =>
  ⟨hostReset s, hostOp_reset s, hostReset_pc s, hostReset_sp s, hostReset_a s, hostReset_x s,
    hostReset_y s, hostReset_p s, hostReset_mem_read s⟩

/-- Settles O3: the registers by definition, the cells as in a cleared memory, and PC tells the two states apart. -/
theorem constructionIsAllZero : Obligations.ConstructionIsAllZero := by
  refine ⟨rfl, fun addr => ?_, fun h => reset_pc_ne_construct_pc (congrArg State.pc h)⟩
  rw [construct_mem, Memory.read_clear]

end Sys2Proof.Machine

/-! What an instruction takes off the budget (spec 70_reset_and_hazards.md R130), and the proof of O26. -/

namespace Sys2Proof.Machine

/-- Whatever its operand and the state, an instruction takes its row's total off the budget. -/
theorem exec_budget {i : Instr} {s t : State} (h : exec i s = .next t) :
    t.budget = s.budget - cost i := by
  rcases exec_next_cases h with
    ⟨_, rfl, rfl⟩ | ⟨_, rfl, rfl⟩ | ⟨_, rfl, rfl⟩ | ⟨_, rfl, rfl⟩ | ⟨_, rfl, rfl⟩
  · rfl
  · rfl
  · rfl
  · rfl
  · rfl

/-- Every instruction runs to completion at its cost. -/
theorem exec_completes_at_cost (i : Instr) (s : State) :
    ∃ t, exec i s = .next t ∧ t.budget = s.budget - cost i := by
  obtain ⟨t, h⟩ := exec_total i s
  exact ⟨t, h, exec_budget h⟩

/-- Settles O26: one cost lemma for all instructions; that the rows add up to 2, 3, 4, 6 and 1 is computation. -/
theorem everyInstructionTakesItsCost : Obligations.EveryInstructionTakesItsCost :=
  ⟨fun imm s => ⟨rfl, exec_completes_at_cost (.ldaImm imm) s⟩,
    fun zp s => ⟨rfl, exec_completes_at_cost (.ldaZp zp) s⟩,
    fun zp s => ⟨rfl, exec_completes_at_cost (.ldaZpX zp) s⟩,
    fun target s => ⟨rfl, exec_completes_at_cost (.jsrAbs target) s⟩,
    fun op s => ⟨rfl, exec_completes_at_cost (.unknown op) s⟩,
    fun _ _ _ h => exec_budget h, hostReset_budget, hostWrite_budget⟩

end Sys2Proof.Machine

/-! Decoding and encoding (spec 30_encoding.md): the opcode map undoes the encoding, the encoding lists the bytes the
opcode map looked at, and the proofs of O12, O13, O14 and O15. -/

namespace Sys2Proof

/-! ### The opcode map and the encoding -/

/-- The opcode map undoes the encoding: where the bytes of a well-formed instruction stand, it finds that instruction. -/
theorem decodeAtWith_of_encodeWith {o : OpcodeParams} (ho : o.Admissible) {i : Instr}
    (hi : i.wellFormedWith o = true) {f : Nat → Byte}
    (hf : ∀ k b, (encodeWith o i)[k]? = some b → f k = b) : decodeAtWith o f = i := by
  have h0 := hf 0
  have h1 := hf 1
  cases i with
  | ldaImm imm => rw [decodeAtWith_ldaImm (h0 _ rfl), h1 _ rfl]
  | ldaZp zp => rw [decodeAtWith_ldaZp ho (h0 _ rfl), h1 _ rfl]
  | ldaZpX zp => rw [decodeAtWith_ldaZpX ho (h0 _ rfl), h1 _ rfl]
  | jsrAbs target =>
    rw [decodeAtWith_jsrAbs ho (h0 _ rfl), h1 _ rfl, hf 2 _ rfl, Machine.cat_split]
  | unknown op =>
    have hop : f 0 = op := h0 _ rfl
    have hunknown : o.isKnown op = false := by simpa [Instr.wellFormedWith] using hi
    rw [decodeAtWith_unknown (hop ▸ hunknown), hop]

/-- Whatever the bytes, the opcode map finds a well-formed instruction. -/
theorem decodeAtWith_wellFormed (o : OpcodeParams) (f : Nat → Byte) :
    (decodeAtWith o f).wellFormedWith o = true := by
  unfold decodeAtWith
  split_ifs with h1 h2 h3 h4
  · rfl
  · rfl
  · rfl
  · rfl
  · simp [Instr.wellFormedWith, (isKnown_eq_false_iff o (f 0)).mpr ⟨h1, h2, h3, h4⟩]

/-- The encoding of the instruction the opcode map finds is the bytes it looked at. -/
theorem encodeWith_decodeAtWith (o : OpcodeParams) (f : Nat → Byte) :
    encodeWith o (decodeAtWith o f) = (List.range (lengthOfWith o (f 0))).map f := by
  unfold decodeAtWith lengthOfWith
  split_ifs with h1 h2 h3 h4
  · rw [encodeWith, ← h1]; rfl
  · rw [encodeWith, ← h2]; rfl
  · rw [encodeWith, ← h3]; rfl
  · rw [encodeWith, Machine.lowByte_cat, Machine.highByte_cat, ← h4]; rfl
  · rfl

theorem encodeWith_length (o : OpcodeParams) (i : Instr) : (encodeWith o i).length = i.length := by
  cases i with
  | ldaImm imm => exact (Laws.EncodedLength.ldaImm imm o).1
  | ldaZp zp => exact (Laws.EncodedLength.ldaZp zp o).1
  | ldaZpX zp => exact (Laws.EncodedLength.ldaZpX zp o).1
  | jsrAbs target => exact (Laws.EncodedLength.jsrAbs target o).1
  | unknown op => exact (Laws.EncodedLength.unknown op o).1

/-- The first `n` bytes of a list that has as many, one by one. -/
theorem map_getD_range {bytes : List Byte} {n : Nat} (h : n ≤ bytes.length) :
    (List.range n).map (fun k => bytes.getD k 0) = bytes.take n := by
  apply List.ext_getElem
  · simp [h]
  · intro k hk _
    have hk : k < bytes.length := by simp at hk; omega
    simp [hk]

/-! ### The decoder of byte lists -/

theorem decodeWith_nil (o : OpcodeParams) : decodeWith o [] = .rejected .empty := rfl

/-- What the decoder reads from a list that is not empty. -/
theorem decodeWith_cons_eq_instr_iff {o : OpcodeParams} {op : Byte} {tail rest : List Byte} {i : Instr} :
    decodeWith o (op :: tail) = .instr i rest ↔
      lengthOfWith o op ≤ (op :: tail).length ∧
      decodeAtWith o (fun k => (op :: tail).getD k 0) = i ∧
      (op :: tail).drop (lengthOfWith o op) = rest := by
  by_cases h : tail.length + 1 < lengthOfWith o op
  · simp [decodeWith, h]
  · simp [decodeWith, h, Nat.not_lt.mp h]

/-- Which lists that are not empty the decoder rejects, and why. -/
theorem decodeWith_cons_eq_rejected_iff {o : OpcodeParams} {op : Byte} {tail : List Byte} {e : DecodeError} :
    decodeWith o (op :: tail) = .rejected e ↔
      tail.length + 1 < lengthOfWith o op ∧ e = .truncated op (lengthOfWith o op) := by
  by_cases h : tail.length + 1 < lengthOfWith o op
  · simp [decodeWith, h, eq_comm]
  · simp [decodeWith, h]

/-- When the opcode map finds an instruction of `bytes.length` bytes in `bytes ++ rest`, the decoder leaves `rest`. -/
theorem decodeWith_append {o : OpcodeParams} {bytes rest : List Byte} {i : Instr} (hlen : bytes.length = i.length)
    (h : decodeAtWith o (fun k => (bytes ++ rest).getD k 0) = i) :
    decodeWith o (bytes ++ rest) = .instr i rest := by
  cases bytes with
  | nil => cases i <;> cases hlen
  | cons op tail =>
    have hop : lengthOfWith o op = (op :: tail).length := by
      rw [hlen, ← h, decodeAtWith_length]; rfl
    rw [List.cons_append] at h ⊢
    refine decodeWith_cons_eq_instr_iff.mpr ⟨by simp [hop], h, ?_⟩
    rw [hop, ← List.cons_append, List.drop_left]

/-- Settles O12: the opcode map undoes the encoding, and the encoding is as long as the instruction. -/
theorem decodeOfEncodeIsIdentity : Obligations.DecodeOfEncodeIsIdentity := by
  intro o i rest ho hi
  refine decodeWith_append (encodeWith_length o i) (decodeAtWith_of_encodeWith ho hi fun k b hk => ?_)
  have hlt : k < (encodeWith o i).length := (List.getElem?_eq_some_iff.mp hk).1
  rw [List.getD_eq_getElem?_getD, List.getElem?_append_left hlt, hk, Option.getD_some]

/-- Settles O13: the decoder reads what the opcode map finds, whose encoding is the bytes looked at. -/
theorem encodeOfDecodeIsIdentity : Obligations.EncodeOfDecodeIsIdentity := by
  intro o bytes i rest h
  cases bytes with
  | nil => cases h
  | cons op tail =>
    obtain ⟨hlen, rfl, rfl⟩ := decodeWith_cons_eq_instr_iff.mp h
    refine ⟨decodeAtWith_wellFormed o _, ?_⟩
    rw [encodeWith_decodeAtWith, List.getD_cons_zero, map_getD_range hlen, List.take_append_drop]

/-- The opcode bytes that ask for operand bytes, and the length they dictate. -/
theorem lengthOfWith_of_one_lt {o : OpcodeParams} {op : Byte} (h : 1 < lengthOfWith o op) :
    (op = o.jsrAbs ∧ lengthOfWith o op = 3) ∨
    ((op = o.ldaImm ∨ op = o.ldaZp ∨ op = o.ldaZpX) ∧ lengthOfWith o op = 2) := by
  unfold lengthOfWith at h ⊢
  split_ifs at h ⊢ with h1 h2 h3 h4
  · exact .inr ⟨.inl h1, rfl⟩
  · exact .inr ⟨.inr (.inl h2), rfl⟩
  · exact .inr ⟨.inr (.inr h3), rfl⟩
  · exact .inl ⟨h4, rfl⟩
  · exact absurd h (by decide)

theorem lengthOfWith_jsrAbs {o : OpcodeParams} (ho : o.Admissible) : lengthOfWith o o.jsrAbs = 3 := by
  obtain ⟨-, -, h3, -, h5, h6⟩ := ho
  simp [lengthOfWith, Ne.symm h3, Ne.symm h5, Ne.symm h6]

theorem lengthOfWith_load {o : OpcodeParams} {op : Byte} (h : op = o.ldaImm ∨ op = o.ldaZp ∨ op = o.ldaZpX) :
    lengthOfWith o op = 2 := by
  rcases h with rfl | rfl | rfl <;> simp [lengthOfWith]

/-- Settles O14: a list that is not empty is rejected exactly when it is shorter than its opcode byte dictates, and only
JSR and the loads dictate more than one byte. -/
theorem decoderRejectsOnlyShortLists : Obligations.DecoderRejectsOnlyShortLists := by
  intro o bytes e ho
  cases bytes with
  | nil => simp [decodeWith_nil, eq_comm]
  | cons op tail =>
    rw [decodeWith_cons_eq_rejected_iff]
    constructor
    · rintro ⟨hshort, rfl⟩
      exact .inr ⟨op, tail, _, rfl, rfl, hshort, lengthOfWith_of_one_lt (by omega)⟩
    · rintro (⟨hnil, -⟩ | ⟨_, _, n, hcons, rfl, hshort, hn⟩)
      · cases hnil
      · cases hcons
        have hlen : lengthOfWith o op = n := by
          obtain ⟨rfl, rfl⟩ | ⟨hload, rfl⟩ := hn
          · exact lengthOfWith_jsrAbs ho
          · exact lengthOfWith_load hload
        exact ⟨hlen ▸ hshort, by rw [hlen]⟩

/-- Settles O15: each byte string is the encoding of the instruction it stands for, followed by the rest. -/
theorem tableBytesDecode : Obligations.TableBytesDecode :=
  have h (i : Instr) (rest : List Byte) (hi : i.wellFormed = true) : decode (encode i ++ rest) = .instr i rest :=
    decodeOfEncodeIsIdentity Machine.opcodes i rest opcodes_admissible hi
  ⟨h (.ldaImm 0x84) [] rfl, h (.ldaZp 0x10) [0xEA] rfl, h (.ldaZpX 0xF0) [] rfl,
    h (.jsrAbs 0x1234) [] rfl, h (.unknown 0x00) [0xA9] rfl⟩

end Sys2Proof

/-! What `SetZN` makes of each bit of P (spec 40_engine.md R74), and the proof of O11. -/

namespace Sys2Proof.Machine

/-- Each bit of P after the flag update: Negative, Zero, or one that is kept. -/
theorem updateZN_getLsbD (f : FlagBits) (v p : Byte) (k : Fin 8) :
    (updateZN f v p).getLsbD k =
      if k = f.negBit then v.msb else if k = f.zeroBit then v == 0 else p.getLsbD k := by
  rw [updateZN, setBit_getLsbD, setBit_getLsbD]

theorem updateZN_zeroBit {f : FlagBits} (hf : f.Admissible) (v p : Byte) :
    (updateZN f v p).getLsbD f.zeroBit = (v == 0) := by
  rw [updateZN_getLsbD, if_neg hf, if_pos rfl]

theorem updateZN_negBit (f : FlagBits) (v p : Byte) : (updateZN f v p).getLsbD f.negBit = v.getLsbD 7 := by
  rw [updateZN_getLsbD, if_pos rfl, BitVec.msb_eq_getLsbD_last]

theorem updateZN_reserved {f : FlagBits} (v p : Byte) {k : Fin 8} (hk : isReservedBitWith f k = true) :
    (updateZN f v p).getLsbD k = p.getLsbD k := by
  obtain ⟨hzero, hneg⟩ : k ≠ f.zeroBit ∧ k ≠ f.negBit := by simpa [isReservedBitWith] using hk
  rw [updateZN_getLsbD, if_neg hneg, if_neg hzero]

/-- Settles O11, bit by bit from what the flag update makes of P. -/
theorem setZNAssignsTwoFlagsInAnyLayout : Obligations.SetZNAssignsTwoFlagsInAnyLayout := by
  intro f v s hf
  refine ⟨updateZN_zeroBit hf v s.p, updateZN_negBit f v s.p, fun k hzero hneg => ?_, rfl⟩
  exact updateZN_reserved v s.p (by simp [isReservedBitWith, hzero, hneg])

end Sys2Proof.Machine

/-! The invariant of spec 10_state.md R26: one lemma per operation that keeps it, and the proofs of O42, O43, O44 and
O51. The invariant says nothing of PC, A and the budget, and the operations may set those to anything. -/

namespace Sys2Proof.Machine

/-! ### The operations keep the invariant -/

/-- Moving SP by 2 keeps it even, also across 0xFFFF. -/
theorem add_two_getLsbD_zero (w : Word) : (w + 2).getLsbD 0 = w.getLsbD 0 := by
  have h : (w + 2).toNat % 2 = w.toNat % 2 := by
    rw [BitVec.toNat_add, show (2 : Word).toNat = 2 from rfl]
    omega
  rw [BitVec.getLsbD, BitVec.getLsbD, Nat.testBit_zero, Nat.testBit_zero, h]

/-- No byte is both zero and negative. -/
theorem not_zero_and_bit_seven (v : Byte) : ¬((v == 0) = true ∧ v.getLsbD 7 = true) := by
  rintro ⟨hzero, hneg⟩
  rw [eq_of_beq hzero] at hneg
  exact absurd hneg (by decide)

section
variable {c : Params} {s : State}

/-- Reset's constants meet the invariant, so only the diagnostics that it keeps must name unknown opcodes. -/
theorem hostReset_inv (hdiag : ∀ d ∈ s.diag, c.opcodes.isKnown d.1 = false) : (hostReset s).InvWith c where
  mem_wf := Memory.wf_clear
  x_zero := hostReset_x s
  y_zero := hostReset_y s
  reserved_zero _ _ := BitVec.getLsbD_zero
  not_zero_and_negative h := absurd h.1 (by simp [State.flagZWith])
  sp_even := by rw [hostReset_sp]; decide
  diag_unknown := hdiag

theorem State.InvWith.hostWrite (hs : s.InvWith c) (addr : Word) (v : Byte) : (hostWrite addr v s).InvWith c :=
  { hs with mem_wf := Memory.wf_write addr v hs.mem_wf }

theorem State.InvWith.setBudget (hs : s.InvWith c) (b : Int) : ({ s with budget := b } : State).InvWith c :=
  { hs with }

/-- The effect of a load of `v`. -/
theorem State.InvWith.load (hs : s.InvWith c) (hf : c.flagBits.Admissible) (v : Byte) (pc : Word) (b : Int) :
    ({ s with pc := pc, a := v, p := updateZN c.flagBits v s.p, budget := b } : State).InvWith c :=
  { hs with
    reserved_zero := fun k hk => (updateZN_reserved v s.p hk).trans (hs.reserved_zero k hk)
    not_zero_and_negative := by
      rw [State.flagZWith, State.flagNWith, updateZN_zeroBit hf, updateZN_negBit]
      exact not_zero_and_bit_seven v }

/-- The effect of a jump that pushes `w`. -/
theorem State.InvWith.jump (hs : s.InvWith c) (w pc : Word) (b : Int) :
    ({ s with pc := pc, sp := s.sp + 2, mem := (writeWord s.sp w s).mem, budget := b } : State).InvWith c :=
  { hs with
    mem_wf := Memory.wf_writeWord s.sp w hs.mem_wf
    sp_even := (add_two_getLsbD_zero s.sp).trans hs.sp_even }

/-- The effect of a report of an unknown opcode. -/
theorem State.InvWith.report (hs : s.InvWith c) {op : Byte} (hop : c.opcodes.isKnown op = false) (addr pc : Word)
    (b : Int) : ({ s with pc := pc, budget := b, diag := s.diag ++ [(op, addr)] } : State).InvWith c :=
  { hs with
    diag_unknown := fun d hd => by
      rcases List.mem_append.mp hd with hd | hd
      · exact hs.diag_unknown d hd
      · rw [List.mem_singleton.mp hd]; exact hop }

end

/-! ### Steps, runs and sessions keep the invariant -/

/-- The instruction a step runs is well-formed. -/
theorem fetchInstrWith_wellFormed (o : OpcodeParams) (s : State) : (fetchInstrWith o s).wellFormedWith o = true :=
  decodeAtWith_wellFormed o _

/-- Every well-formed instruction keeps the invariant. -/
theorem execWith_keeps_invariant {c : Params} (hf : c.flagBits.Admissible) {i : Instr}
    (hi : i.wellFormedWith c.opcodes = true) {s t : State} (hs : s.InvWith c) (h : execWith c i s = .next t) :
    t.InvWith c := by
  rcases execWith_next_cases h with
    ⟨_, -, rfl⟩ | ⟨_, -, rfl⟩ | ⟨_, -, rfl⟩ | ⟨_, -, rfl⟩ | ⟨op, rfl, rfl⟩
  · exact hs.load hf _ _ _
  · exact hs.load hf _ _ _
  · exact hs.load hf _ _ _
  · exact hs.jump _ _ _
  · exact hs.report (by simpa [Instr.wellFormedWith] using hi) _ _ _

theorem stepWith_keeps_invariant {c : Params} (hf : c.flagBits.Admissible) {s t : State} (hs : s.InvWith c)
    (h : stepWith c s = .next t) : t.InvWith c :=
  execWith_keeps_invariant hf (fetchInstrWith_wellFormed c.opcodes s) hs h

/-- Every step has a next state, under every choice of the parameters. -/
theorem stepWith_total (c : Params) (s : State) : ∃ t, stepWith c s = .next t :=
  execWith_total c _ s

/-- What every step keeps, a run of the loop keeps, and the run ends. -/
theorem executeLoopWith_keeps {c : Params} {P : State → Prop}
    (hstep : ∀ s t, P s → stepWith c s = .next t → P t) (fuel : Nat) {s : State} (hs : P s) :
    ∃ t, executeLoopWith c fuel s = .next t ∧ P t := by
  induction fuel generalizing s with
  | zero => exact ⟨s, rfl, hs⟩
  | succ fuel ih =>
    by_cases hb : 0 < s.budget
    · obtain ⟨t, ht⟩ := stepWith_total c s
      rw [(executeLoopWith_succ fuel hb ht).1]
      exact ih (hstep s t hs ht)
    · exact ⟨s, by rw [executeLoopWith, if_neg hb], hs⟩

/-- Every host operation completes and keeps the invariant. -/
theorem hostOpWith_keeps_invariant {c : Params} (hf : c.flagBits.Admissible) (op : HostOp) {s : State}
    (hs : s.InvWith c) : ∃ t, hostOpWith c op s = .next t ∧ t.InvWith c := by
  cases op with
  | reset => exact ⟨_, rfl, hostReset_inv hs.diag_unknown⟩
  | write addr v => exact ⟨_, rfl, hs.hostWrite addr v⟩
  | execute b =>
    exact executeLoopWith_keeps (fun _ _ => stepWith_keeps_invariant hf) _ (hs.setBudget b)

theorem sessionWith_keeps_invariant {c : Params} (hf : c.flagBits.Admissible) (ops : List HostOp) {s : State}
    (hs : s.InvWith c) : ∃ t, sessionWith c ops s = .next t ∧ t.InvWith c := by
  induction ops generalizing s with
  | nil => exact ⟨s, rfl, hs⟩
  | cons op ops ih =>
    obtain ⟨t, ht, hinv⟩ := hostOpWith_keeps_invariant hf op hs
    rw [sessionWith, ht]
    exact ih hinv

/-- Reset meets the invariant at every choice of the parameters: nothing was diagnosed before it. -/
theorem reset_inv (c : Params) : State.reset.InvWith c :=
  hostReset_inv (s := State.construct) fun _ hd => nomatch hd

/-- Settles O42: the invariant at reset, at the machine's parameters. -/
theorem resetMeetsTheInvariant : Obligations.ResetMeetsTheInvariant := reset_inv params

/-- Settles O43: what a step fetches is well-formed, and every well-formed instruction keeps the invariant. -/
theorem stepKeepsTheInvariant : Obligations.StepKeepsTheInvariant := fun s _ hs h =>
  stepWith_keeps_invariant flagBits_admissible hs ((step_eq_stepWith s).symm.trans h)

/-- Settles O44, by induction on the list of host operations. -/
theorem sessionsCompleteAndKeepTheInvariant : Obligations.SessionsCompleteAndKeepTheInvariant := fun ops _ hs =>
  sessionWith_keeps_invariant flagBits_admissible ops hs

/-- Settles O51: reset, steps and sessions at any choice of the parameters. -/
theorem invariantHoldsForAnyParameters : Obligations.InvariantHoldsForAnyParameters := fun c ⟨_, hf⟩ =>
  ⟨reset_inv c, fun _ _ => stepWith_keeps_invariant hf, fun ops _ => sessionWith_keeps_invariant hf ops⟩

end Sys2Proof.Machine

/-! What memory and the host's writes do (spec 20_memory.md, 10_state.md R24), and the proofs of O6, O7, O8 and O10. -/

namespace Sys2Proof.Machine

/-! ### Canonical memories are told apart by their reads (log 11) -/

/-- With addresses rising, no cell hides a later one: every listed cell is what a lookup finds. -/
theorem Memory.lookup_of_mem {m : Memory} (hm : m.Pairwise (fun c d => c.1 < d.1)) {c : Host.Cell} (hc : c ∈ m) :
    Memory.lookup m c.1 = c.2 := by
  induction m with
  | nil => cases hc
  | cons d rest ih =>
    obtain ⟨hall, hrest⟩ := List.pairwise_cons.mp hm
    rcases List.mem_cons.mp hc with rfl | hc
    · exact if_pos rfl
    · exact (if_neg (hall c hc).ne).trans (ih hrest hc)

/-- What a lookup finds, if it is not what an unlisted address reads as, is listed. -/
theorem Memory.mem_of_lookup {m : Memory} {n : Nat} (h : Memory.lookup m n ≠ Memory.unlisted) :
    (n, Memory.lookup m n) ∈ m := by
  induction m with
  | nil => exact absurd rfl h
  | cons d rest ih =>
    obtain ⟨k, v⟩ := d
    by_cases hk : k = n
    · simp [Memory.lookup, hk]
    · simp only [Memory.lookup, hk, if_false] at h ⊢
      exact List.mem_cons_of_mem _ (ih h)

/-- A cell of a canonical memory is listed in every memory that reads alike. -/
theorem Memory.mem_of_reads_alike {m m' : Memory} (hm : m.wf) (h : ∀ addr : Word, m.read addr = m'.read addr)
    {c : Host.Cell} (hc : c ∈ m) : c ∈ m' := by
  obtain ⟨haddr, hlisted⟩ := hm.2 c hc
  have hread : c.2 = Memory.lookup m' c.1 := by
    have h16 := h (BitVec.ofNat 16 c.1)
    rw [Memory.read, Memory.read, BitVec.toNat_ofNat, Nat.mod_eq_of_lt haddr] at h16
    exact (Memory.lookup_of_mem hm.1 hc).symm.trans h16
  rw [hread] at hlisted
  have hmem := Memory.mem_of_lookup hlisted
  rwa [← hread] at hmem

/-- Settles O6: the two lists have the same cells, and rising addresses leave one order for them. -/
theorem canonicalMemoriesThatReadAlikeAreEqual : Obligations.CanonicalMemoriesThatReadAlikeAreEqual := by
  intro m m' hm hm' h
  have : Std.Irrefl (fun c d : Host.Cell => c.1 < d.1) := ⟨fun c => Nat.lt_irrefl c.1⟩
  have : Std.Antisymm (fun c d : Host.Cell => c.1 < d.1) := ⟨fun _ _ h₁ h₂ => absurd h₁ (Nat.lt_asymm h₂)⟩
  exact hm.1.eq_of_mem_iff hm'.1 fun _ =>
    ⟨Memory.mem_of_reads_alike hm h, Memory.mem_of_reads_alike hm' fun addr => (h addr).symm⟩

/-! ### The host's writes of consecutive bytes -/

theorem inc16_add_ofNat (w : Word) (k : Nat) : inc16 w + BitVec.ofNat 16 k = w + BitVec.ofNat 16 (k + 1) := by
  rw [inc16_eq_add_one, BitVec.add_assoc, Nat.add_comm, BitVec.ofNat_add]
  rfl

/-- Consecutive writes leave every other address alone. -/
theorem Memory.read_writeBytes_other {m : Memory} {addr other : Word} {bs : List Byte}
    (h : ∀ k < bs.length, other ≠ addr + BitVec.ofNat 16 k) :
    (m.writeBytes addr bs).read other = m.read other := by
  induction bs generalizing m addr with
  | nil => rfl
  | cons b bs ih =>
    have hfirst : other ≠ addr := by simpa using h 0 (Nat.succ_pos _)
    rw [Memory.writeBytes, ih, Memory.read_write_other m b hfirst]
    intro k hk
    rw [inc16_add_ofNat]
    exact h (k + 1) (Nat.succ_lt_succ hk)

/-- Bytes written one after another stand at consecutive addresses, also across 0xFFFF. -/
theorem Memory.read_writeBytes {m : Memory} {addr : Word} {bs : List Byte} (hlen : bs.length ≤ 65536) {k : Nat}
    {b : Byte} (hk : bs[k]? = some b) : (m.writeBytes addr bs).read (addr + BitVec.ofNat 16 k) = b := by
  induction bs generalizing m addr k with
  | nil => cases hk
  | cons b' bs ih =>
    rw [List.length_cons] at hlen
    cases k with
    | zero =>
      obtain rfl : b' = b := by simpa using hk
      rw [Memory.writeBytes, Memory.read_writeBytes_other]
      · simp
      · intro k hk
        rw [inc16_add_ofNat]
        bv_omega
    | succ k =>
      rw [← inc16_add_ofNat, Memory.writeBytes]
      exact ih (by omega) (by simpa using hk)

/-! ### The word write, the host's write and the word fetch -/

/-- Settles O7: the bytes of the word stand at the two addresses, and CAT undoes SPLIT. -/
theorem wordWriteRoundTripsLittleEndian : Obligations.WordWriteRoundTripsLittleEndian := by
  intro addr w s
  refine ⟨?_, fun _ hlow hhigh => writeWord_read_other w s hlow hhigh, rfl, writeWord_budget addr w s,
    writeWord_diag addr w s⟩
  rw [← inc16_eq_add_one, writeWord_read_high, writeWord_read_low, cat_split]

/-- Settles O8: the host's write always succeeds and is one write to memory. -/
theorem hostWriteChangesOnlyItsCell : Obligations.HostWriteChangesOnlyItsCell := fun addr v s =>
  ⟨hostWrite addr v s, rfl, s.mem.read_write_same addr v, fun _ hne => s.mem.read_write_other v hne, rfl,
    hostWrite_budget addr v s, hostWrite_diag addr v s⟩

/-- Advancing over two bytes one by one is advancing over a word. -/
theorem advanceByte_advanceByte (s : State) : advanceByte (advanceByte s) = advanceWord s := by
  have hbudget : s.budget - 1 - 1 = s.budget - 2 := by omega
  simp [advanceByte, advanceWord, charge, inc16_inc16, addTwo16, hbudget]

/-- Settles O10: the states by the lemma above, the word by what CAT means. -/
theorem fetchWordIsTwoFetchBytes : Obligations.FetchWordIsTwoFetchBytes := fun s =>
  ⟨(advanceByte_advanceByte s).symm, cat_toNat _ _⟩

/-! ### Reset -/

/-- Settles O2: reset sets every field but budget and DIAG to a constant. -/
theorem resetKeepsBudgetAndDiagOnly : Obligations.ResetKeepsBudgetAndDiagOnly := by
  refine ⟨fun s => ⟨hostReset_budget s, hostReset_diag s⟩, fun s s' hbudget hdiag => ?_, fun _ => rfl,
    reset_eq_hostReset_construct⟩
  simp [hostReset, hbudget, hdiag]

end Sys2Proof.Machine

/-! What a step fetches and runs (spec 40_engine.md R71, 30_encoding.md R50 and R57, 70_reset_and_hazards.md R123), and
the proofs of O4, O16, O17, O18, O19, O20, O45, O46 and O48. -/

namespace Sys2Proof.Machine

/-! ### Fetching -/

/-- The fetch written out over the bytes at PC. -/
theorem fetchInstrWith_eq (o : OpcodeParams) (s : State) :
    fetchInstrWith o s =
      if s.mem.read s.pc = o.ldaImm then .ldaImm (s.mem.read (s.pc + 1))
      else if s.mem.read s.pc = o.ldaZp then .ldaZp (s.mem.read (s.pc + 1))
      else if s.mem.read s.pc = o.ldaZpX then .ldaZpX (s.mem.read (s.pc + 1))
      else if s.mem.read s.pc = o.jsrAbs then .jsrAbs (cat (s.mem.read (s.pc + 2)) (s.mem.read (s.pc + 1)))
      else .unknown (s.mem.read s.pc) := by
  simp [fetchInstrWith, decodeAtWith]

/-- The fetch is the opcode map over the list of the three bytes at PC. -/
theorem fetchInstrWith_eq_decodeAtWith (o : OpcodeParams) (s : State) :
    fetchInstrWith o s = decodeAtWith o fun k =>
      [s.mem.read s.pc, s.mem.read (s.pc + 1), s.mem.read (s.pc + 2)].getD k 0 := by
  simp [fetchInstrWith_eq, decodeAtWith]

/-- The fetch finds what the decoder reads from the three bytes at PC. -/
theorem fetchInstrWith_of_decodeWith {o : OpcodeParams} {s : State} {i : Instr} {rest : List Byte}
    (h : decodeWith o [s.mem.read s.pc, s.mem.read (s.pc + 1), s.mem.read (s.pc + 2)] = .instr i rest) :
    fetchInstrWith o s = i := by
  obtain ⟨-, hi, -⟩ := decodeWith_cons_eq_instr_iff.mp h
  rw [fetchInstrWith_eq_decodeAtWith, hi]

/-- Settles O48: the opcode map undoes the encoding that stands at PC. -/
theorem stepRunsTheEncodedInstructionForAnyOpcodes : Obligations.StepRunsTheEncodedInstructionForAnyOpcodes := by
  intro c s i ho hi hbytes
  rw [stepWith, fetchInstrWith, decodeAtWith_of_encodeWith ho hi hbytes]

/-- Settles O18: O48 at the machine's parameters. -/
theorem stepRunsTheEncodedInstruction : Obligations.StepRunsTheEncodedInstruction := by
  intro s i hi hbytes
  rw [step_eq_stepWith, exec_eq_execWith]
  exact stepRunsTheEncodedInstructionForAnyOpcodes params s i opcodes_admissible hi hbytes

/-- Settles O17: the decoder and the fetch share the opcode map. -/
theorem stepRunsTheDecodedInstruction : Obligations.StepRunsTheDecodedInstruction := by
  intro s i rest h
  rw [step, fetchInstr, fetchInstrWith_of_decodeWith h]

/-- Settles O19: the three bytes of the placed word stand at PC and are what the decoder was given. -/
theorem fetchedTableWordIsExecuted : Obligations.FetchedTableWordIsExecuted := by
  intro s nbits w i h
  cases hdecode : decode (tableBytes nbits w) with
  | rejected e => simp [decodeTableWord, hdecode] at h
  | instr j rest =>
    obtain rfl : j = i := by simpa [decodeTableWord, hdecode] using h
    refine stepRunsTheDecodedInstruction _ j rest ?_
    obtain ⟨h0, h1, h2⟩ := s.mem.read_writeBytes_three s.pc (BitVec.ofNat 8 (w % 2 ^ nbits))
      (BitVec.ofNat 8 (w % 2 ^ nbits / 2 ^ 8)) (BitVec.ofNat 8 (w % 2 ^ nbits / 2 ^ 16))
    rw [State.withFetchWord, tableBytes, h0, h1, h2]
    exact hdecode

/-- Settles O4: after reset PC is where the encoding was written, so the step runs it. -/
theorem firstInstructionStandsAtResetVector : Obligations.FirstInstructionStandsAtResetVector := by
  intro s i hi
  refine stepRunsTheEncodedInstruction _ i hi fun k b hk => Memory.read_writeBytes ?_ hk
  have hlen : (encode i).length ≤ 3 := by
    rw [encode, encodeWith_length]
    cases i <;> simp [Instr.length]
  omega

/-- Settles O20: every meaning answers a next state. -/
theorem everyStepIsSafe : Obligations.EveryStepIsSafe := fun s => exec_total (fetchInstr s) s

/-- Settles O45: the two machines differ in the name of their step. -/
theorem hostMachineIsTheParametricOneAtTheDefaults : Obligations.HostMachineIsTheParametricOneAtTheDefaults := by
  refine ⟨?_, rfl, opcodes_admissible, flagBits_admissible⟩
  rw [core, coreWith, show step = stepWith params from funext step_eq_stepWith]

/-! ### The pseudocode -/

/-- After the opcode fetch, the handler of each opcode does what the decoded instruction does. -/
theorem execLdaImmWith_eq_pseudocode (f : FlagBits) (s : State) :
    execLdaImmWith f (s.mem.read (s.pc + 1)) s = .next (Pseudocode.ldaImm f (advanceByte s)) := rfl

theorem execLdaZpWith_eq_pseudocode (f : FlagBits) (s : State) :
    execLdaZpWith f (s.mem.read (s.pc + 1)) s = .next (Pseudocode.ldaZp f (advanceByte s)) := rfl

theorem execLdaZpXWith_eq_pseudocode (f : FlagBits) (s : State) :
    execLdaZpXWith f (s.mem.read (s.pc + 1)) s = .next (Pseudocode.ldaZpX f (advanceByte s)) := rfl

theorem execJsrAbs_eq_pseudocode (s : State) :
    execJsrAbs (cat (s.mem.read (s.pc + 2)) (s.mem.read (s.pc + 1))) s =
      .next (Pseudocode.jsrAbs (advanceByte s)) := by
  rw [← inc16_inc16]
  rfl

theorem execUnknown_eq_pseudocode (op : Byte) (s : State) :
    execUnknown op s = .next (Pseudocode.unknownOpcode op s.pc (advanceByte s)) := rfl

/-- Settles O46: the fetch and the pseudocode make the same tests in the same order, and the handlers agree. -/
theorem stepFollowsThePseudocodeForAnyParameters : Obligations.StepFollowsThePseudocodeForAnyParameters := by
  intro c s
  rw [stepWith, fetchInstrWith_eq, Pseudocode.step]
  dsimp only [fetchByte]
  split_ifs
  · exact execLdaImmWith_eq_pseudocode c.flagBits s
  · exact execLdaZpWith_eq_pseudocode c.flagBits s
  · exact execLdaZpXWith_eq_pseudocode c.flagBits s
  · exact execJsrAbs_eq_pseudocode s
  · exact execUnknown_eq_pseudocode _ s

/-- Settles O16: O46 at the machine's parameters. -/
theorem stepFollowsThePseudocode : Obligations.StepFollowsThePseudocode := fun s =>
  (step_eq_stepWith s).trans (stepFollowsThePseudocodeForAnyParameters params s)

end Sys2Proof.Machine

/-! The whole effect of each instruction (spec 41_load_accumulator.md, 42_jump_to_subroutine.md, 60_exceptions.md), once
per kind of effect and then per instruction in any flag layout, and the proofs of O21 to O25, O31 to O34, O47 and O49. -/

namespace Sys2Proof.Machine

/-! ### The three kinds of effect -/

theorem loadEffectWith_of_load {f : FlagBits} (hf : f.Admissible) (v : Byte) (units : Int) (s : State) :
    LoadEffectWith f v units s
      { s with pc := s.pc + 2, a := v, p := updateZN f v s.p, budget := s.budget - units } where
  a_loaded := rfl
  zero_flag := updateZN_zeroBit hf v s.p
  negative_flag := updateZN_negBit f v s.p
  reserved_bits _ hk := updateZN_reserved v s.p hk
  pc_advances := rfl
  units_charged := rfl
  sp_kept := rfl
  x_kept := rfl
  y_kept := rfl
  mem_kept _ := rfl
  diag_kept := rfl

theorem jumpEffect_of_jump (target : Word) (s : State) :
    JumpEffect target s
      { s with pc := target, sp := s.sp + 2, mem := (writeWord s.sp (s.pc + 2) s).mem, budget := s.budget - 6 } where
  pc_target := rfl
  sp_advances := rfl
  pushed_low := writeWord_read_low s.sp (s.pc + 2) s
  pushed_high := writeWord_read_high s.sp (s.pc + 2) s
  mem_kept _ hlow hhigh := writeWord_read_other (s.pc + 2) s hlow hhigh
  units_charged := rfl
  a_kept := rfl
  x_kept := rfl
  y_kept := rfl
  p_kept := rfl
  diag_kept := rfl

theorem unknownEffect_of_report (op : Byte) (s : State) :
    UnknownEffect op s { s with pc := s.pc + 1, budget := s.budget - 1, diag := s.diag ++ [(op, s.pc)] } where
  pc_advances := rfl
  units_charged := rfl
  diag_appended := rfl
  sp_kept := rfl
  a_kept := rfl
  x_kept := rfl
  y_kept := rfl
  p_kept := rfl
  mem_kept _ := rfl

/-! ### The five instructions -/

theorem execWith_ldaImm_effect {c : Params} (hf : c.flagBits.Admissible) (imm : Byte) (s : State) :
    ∃ t, execWith c (.ldaImm imm) s = .next t ∧ LoadEffectWith c.flagBits imm 2 s t :=
  ⟨_, execLdaImmWith_eq c.flagBits imm s, loadEffectWith_of_load hf imm 2 s⟩

theorem execWith_ldaZp_effect {c : Params} (hf : c.flagBits.Admissible) (zp : Byte) (s : State) :
    ∃ t, execWith c (.ldaZp zp) s = .next t ∧
      LoadEffectWith c.flagBits (s.mem.read (BitVec.ofNat 16 zp.toNat)) 3 s t := by
  rw [← zext16_eq_ofNat]
  exact ⟨_, execLdaZpWith_eq c.flagBits zp s, loadEffectWith_of_load hf _ 3 s⟩

theorem execWith_ldaZpX_effect {c : Params} (hf : c.flagBits.Admissible) (zp : Byte) (s : State) :
    ∃ t, execWith c (.ldaZpX zp) s = .next t ∧
      LoadEffectWith c.flagBits (s.mem.read (BitVec.ofNat 16 ((zp.toNat + s.x.toNat) % 256))) 4 s t := by
  rw [← add8_toNat, ← zext16_eq_ofNat]
  exact ⟨_, execLdaZpXWith_eq c.flagBits zp s, loadEffectWith_of_load hf _ 4 s⟩

theorem execWith_jsrAbs_effect (c : Params) (target : Word) (s : State) :
    ∃ t, execWith c (.jsrAbs target) s = .next t ∧ JumpEffect target s t :=
  ⟨_, execJsrAbs_eq target s, jumpEffect_of_jump target s⟩

theorem execWith_unknown_effect (c : Params) (op : Byte) (s : State) :
    ∃ t, execWith c (.unknown op) s = .next t ∧ UnknownEffect op s t :=
  ⟨_, execUnknown_eq op s, unknownEffect_of_report op s⟩

/-- Settles O47: the five instructions, each by its lemma above. -/
theorem instructionsTakeEffectInAnyFlagLayout : Obligations.InstructionsTakeEffectInAnyFlagLayout := fun c s hf =>
  ⟨fun imm => execWith_ldaImm_effect hf imm s, fun zp => execWith_ldaZp_effect hf zp s,
    fun zp => execWith_ldaZpX_effect hf zp s, fun target => execWith_jsrAbs_effect c target s,
    fun op => execWith_unknown_effect c op s⟩

/-- Settles O21: the effect in any flag layout, at the machine's. -/
theorem ldaImmediateLoadsItsOperand : Obligations.LdaImmediateLoadsItsOperand := fun imm s =>
  execWith_ldaImm_effect (c := params) flagBits_admissible imm s

/-- Settles O22: the effect in any flag layout, at the machine's. -/
theorem ldaZeroPageLoadsTheCell : Obligations.LdaZeroPageLoadsTheCell := fun zp s =>
  execWith_ldaZp_effect (c := params) flagBits_admissible zp s

/-- Settles O23: the effect in any flag layout, at the machine's. -/
theorem ldaZeroPageXLoadsTheIndexedCell : Obligations.LdaZeroPageXLoadsTheIndexedCell := fun zp s =>
  execWith_ldaZpX_effect (c := params) flagBits_admissible zp s

/-- Settles O24: JSR reads no parameter. -/
theorem jsrPushesReturnAddressAndJumps : Obligations.JsrPushesReturnAddressAndJumps := fun target s =>
  execWith_jsrAbs_effect params target s

/-! ### The step at an unknown opcode and at a JSR -/

/-- A byte at PC that is no known opcode is fetched as an unknown opcode. -/
theorem fetchInstrWith_unknown {o : OpcodeParams} {s : State} (h : o.isKnown (s.mem.read s.pc) = false) :
    fetchInstrWith o s = .unknown (s.mem.read s.pc) := by
  obtain ⟨h1, h2, h3, h4⟩ := (isKnown_eq_false_iff o _).mp h
  rw [fetchInstrWith_eq, if_neg h1, if_neg h2, if_neg h3, if_neg h4]

/-- A step at a byte that is no known opcode reports it. -/
theorem step_unknown_effect {s : State} (h : opcodes.isKnown (s.mem.read s.pc) = false) :
    ∃ t, step s = .next t ∧ UnknownEffect (s.mem.read s.pc) s t := by
  rw [step, fetchInstr, fetchInstrWith_unknown h]
  exact execWith_unknown_effect params _ s

/-- Settles O25: the instruction, and the step that runs it. -/
theorem unknownOpcodeOnlyReportsAndGoesOn : Obligations.UnknownOpcodeOnlyReportsAndGoesOn :=
  ⟨execWith_unknown_effect params, fun _ => step_unknown_effect⟩

/-- Settles O33: the fetch assembles the target from the memory before the step, and JSR jumps there. -/
theorem jsrFetchesItsTargetBeforeThePush : Obligations.JsrFetchesItsTargetBeforeThePush := by
  intro s h
  have hfetch : fetchInstr s = .jsrAbs (cat (s.mem.read (s.pc + 2)) (s.mem.read (s.pc + 1))) := by
    rw [fetchInstr, fetchInstrWith_eq_decodeAtWith]
    exact decodeAtWith_jsrAbs opcodes_admissible h
  rw [step, hfetch]
  exact jsrPushesReturnAddressAndJumps _ s

/-- Settles O34: the jump lands on the pushed low byte, and the step there reports it. -/
theorem pushedByteIsTheNextOpcode : Obligations.PushedByteIsTheNextOpcode := by
  intro s h
  obtain ⟨t, ht, hjump⟩ := jsrPushesReturnAddressAndJumps s.sp s
  have hop : t.mem.read t.pc = lowByte (s.pc + 2) := by rw [hjump.pc_target, hjump.pushed_low]
  obtain ⟨u, hu, hreport⟩ := step_unknown_effect (s := t) (by rw [hop]; exact h)
  refine ⟨t, u, ht, hu, ?_, ?_, ?_⟩
  · rw [hreport.diag_appended, hop, hjump.diag_kept, hjump.pc_target]
  · rw [hreport.pc_advances, hjump.pc_target]
  · rw [hreport.units_charged, hjump.units_charged]
    omega

/-! ### What only some instructions do -/

/-- Settles O31: JSR by its effect, the other instructions by what they make of PC and SP. -/
theorem onlyJsrTransfersControlOrMovesSp : Obligations.OnlyJsrTransfersControlOrMovesSp := by
  intro i s t h
  rcases exec_next_cases h with
    ⟨_, rfl, rfl⟩ | ⟨_, rfl, rfl⟩ | ⟨_, rfl, rfl⟩ | ⟨target, rfl, rfl⟩ | ⟨_, rfl, rfl⟩
  · exact ⟨nofun, fun _ => ⟨rfl, rfl⟩⟩
  · exact ⟨nofun, fun _ => ⟨rfl, rfl⟩⟩
  · exact ⟨nofun, fun _ => ⟨rfl, rfl⟩⟩
  · exact ⟨fun _ htarget => ⟨Instr.jsrAbs.inj htarget, rfl⟩, fun hother => absurd rfl (hother target)⟩
  · exact ⟨nofun, fun _ => ⟨rfl, rfl⟩⟩

/-- An instruction other than an unknown opcode diagnoses nothing. -/
theorem execWith_diag_of_ne_unknown {c : Params} {i : Instr} {s t : State} (h : execWith c i s = .next t)
    (hi : ∀ op, i ≠ .unknown op) : t.diag = s.diag := by
  rcases execWith_next_cases h with
    ⟨_, -, rfl⟩ | ⟨_, -, rfl⟩ | ⟨_, -, rfl⟩ | ⟨_, -, rfl⟩ | ⟨op, hop, -⟩
  · rfl
  · rfl
  · rfl
  · rfl
  · exact absurd hop (hi op)

/-- A known opcode at PC is not fetched as an unknown one. -/
theorem fetchInstrWith_ne_unknown {o : OpcodeParams} {s : State} (h : o.isKnown (s.mem.read s.pc) = true) (op : Byte) :
    fetchInstrWith o s ≠ .unknown op := by
  rw [fetchInstrWith_eq]
  split_ifs with h1 h2 h3 h4
  · nofun
  · nofun
  · nofun
  · nofun
  · rw [(isKnown_eq_false_iff o _).mpr ⟨h1, h2, h3, h4⟩] at h
    cases h

/-- Settles O32: a known opcode is not fetched as an unknown one, and an unknown one is reported. -/
theorem diagnosticsNameExactlyUnknownOpcodes : Obligations.DiagnosticsNameExactlyUnknownOpcodes := by
  intro s
  cases hop : opcodes.isKnown (s.mem.read s.pc) with
  | true =>
    obtain ⟨t, ht⟩ := everyStepIsSafe s
    have hdiag := execWith_diag_of_ne_unknown ((step_eq_stepWith s).symm.trans ht) (fetchInstrWith_ne_unknown hop)
    exact ⟨t, ht, .inl ⟨rfl, hdiag⟩⟩
  | false =>
    obtain ⟨t, ht, hreport⟩ := step_unknown_effect hop
    exact ⟨t, ht, .inr ⟨rfl, hreport.diag_appended⟩⟩

/-- Under any two admissible layouts the flag update sets the same Zero and Negative, each at its own position. -/
theorem updateZN_flags_agree {f f' : FlagBits} (hf : f.Admissible) (hf' : f'.Admissible) (v p : Byte) :
    (updateZN f' v p).getLsbD f'.zeroBit = (updateZN f v p).getLsbD f.zeroBit ∧
    (updateZN f' v p).getLsbD f'.negBit = (updateZN f v p).getLsbD f.negBit := by
  rw [updateZN_zeroBit hf, updateZN_zeroBit hf', updateZN_negBit, updateZN_negBit]
  exact ⟨rfl, rfl⟩

/-- Settles O49: the flag positions matter to the loads only, which assign both flags from one value. -/
theorem parametersMatterOnlyToEncodingAndFlagPlaces : Obligations.ParametersMatterOnlyToEncodingAndFlagPlaces := by
  rintro c c' i s ⟨-, hf⟩ ⟨-, hf'⟩
  have hflags (v : Byte) := updateZN_flags_agree hf hf' v s.p
  cases i with
  | ldaImm v => exact ⟨_, _, execLdaImmWith_eq _ v s, execLdaImmWith_eq _ v s, fun _ => hflags v, nofun⟩
  | ldaZp zp => exact ⟨_, _, execLdaZpWith_eq _ zp s, execLdaZpWith_eq _ zp s, fun _ => hflags _, nofun⟩
  | ldaZpX zp => exact ⟨_, _, execLdaZpXWith_eq _ zp s, execLdaZpXWith_eq _ zp s, fun _ => hflags _, nofun⟩
  | jsrAbs target => exact ⟨_, s.p, execJsrAbs_eq target s, execJsrAbs_eq target s, nofun, fun _ => rfl⟩
  | unknown op => exact ⟨_, s.p, execUnknown_eq op s, execUnknown_eq op s, nofun, fun _ => rfl⟩

end Sys2Proof.Machine

/-! What an instruction reads and does not read (spec 40_engine.md section 2, 10_state.md sections 2 and 3), and the proofs
of O27, O29 and O30. -/

namespace Sys2Proof.Machine

/-! ### Registers and memory are all an instruction reads -/

/-- A state with the same registers differs in memory, budget and DIAG at most. -/
theorem eq_of_regFile_eq {s s' : State} (h : s.regFile = s'.regFile) :
    s' = { s with mem := s'.mem, budget := s'.budget, diag := s'.diag } := by
  obtain ⟨hpc, hsp, ha, hx, hy, hp⟩ := RegFile.mk.inj h
  simp only [hpc, hsp, ha, hx, hy, hp]

/-- Memories that read alike read alike after the same word write. -/
theorem writeWord_reads_alike {s s' : State} (h : ∀ addr : Word, s.mem.read addr = s'.mem.read addr)
    (addr w other : Word) : (writeWord addr w s).mem.read other = (writeWord addr w s').mem.read other := by
  simp only [writeWord_mem, Memory.read_write, h]

/-- With another budget, other diagnostics and a memory that reads alike, an instruction leaves the same registers, a
memory that reads alike, and the same new diagnostics. -/
theorem exec_agrees (i : Instr) (s : State) {m : Memory} (b : Int) (d : List Diag)
    (hm : ∀ addr : Word, s.mem.read addr = m.read addr) :
    ∃ t t' new, exec i s = .next t ∧ exec i { s with mem := m, budget := b, diag := d } = .next t' ∧
      t.regFile = t'.regFile ∧ (∀ addr : Word, t.mem.read addr = t'.mem.read addr) ∧
      t.diag = s.diag ++ new ∧ t'.diag = d ++ new := by
  have hnil (l : List Diag) : l = l ++ [] := (List.append_nil l).symm
  cases i with
  | ldaImm v => exact ⟨_, _, [], execLdaImm_eq v s, execLdaImm_eq v _, rfl, hm, hnil _, hnil _⟩
  | ldaZp zp =>
    exact ⟨_, _, [], execLdaZp_eq zp s, execLdaZp_eq zp _, by simp only [State.regFile, hm], hm, hnil _, hnil _⟩
  | ldaZpX zp =>
    exact ⟨_, _, [], execLdaZpX_eq zp s, execLdaZpX_eq zp _, by simp only [State.regFile, hm], hm, hnil _, hnil _⟩
  | jsrAbs target =>
    exact ⟨_, _, [], execJsrAbs_eq target s, execJsrAbs_eq target _, rfl, writeWord_reads_alike hm _ _, hnil _, hnil _⟩
  | unknown op => exact ⟨_, _, [(op, s.pc)], execUnknown_eq op s, execUnknown_eq op _, rfl, hm, rfl, rfl⟩

/-- Settles O27: the other state is the first with another memory, budget and DIAG, and both pay the cost. -/
theorem instructionsReadOnlyRegistersAndMemory : Obligations.InstructionsReadOnlyRegistersAndMemory := by
  intro i s s' hreg hmem
  obtain ⟨t, t', new, ht, ht', hreg', hmem', hdiag, hdiag'⟩ := exec_agrees i s s'.budget s'.diag hmem
  rw [← eq_of_regFile_eq hreg] at ht'
  refine ⟨t, t', new, ht, ht', hreg', hmem', ?_, hdiag, hdiag'⟩
  rw [exec_budget ht, exec_budget ht', sub_sub_cancel, sub_sub_cancel]

/-! ### X and Y -/

theorem execWith_keeps_xy {c : Params} {i : Instr} {s t : State} (h : execWith c i s = .next t) :
    t.x = s.x ∧ t.y = s.y := by
  rcases execWith_next_cases h with
    ⟨_, -, rfl⟩ | ⟨_, -, rfl⟩ | ⟨_, -, rfl⟩ | ⟨_, -, rfl⟩ | ⟨_, -, rfl⟩
  · exact ⟨rfl, rfl⟩
  · exact ⟨rfl, rfl⟩
  · exact ⟨rfl, rfl⟩
  · exact ⟨rfl, rfl⟩
  · exact ⟨rfl, rfl⟩

/-- No host operation but reset writes X or Y: the host writes memory only, and a run keeps what every step keeps. -/
theorem hostOp_keeps_xy {op : HostOp} {s t : State} (hop : op ≠ .reset) (h : hostOp op s = .next t) :
    t.x = s.x ∧ t.y = s.y := by
  cases op with
  | reset => exact absurd rfl hop
  | write addr v => cases h; exact ⟨rfl, rfl⟩
  | execute b =>
    have hkeeps : ∀ u u' : State, (u.x = s.x ∧ u.y = s.y) → stepWith params u = .next u' → u'.x = s.x ∧ u'.y = s.y := by
      rintro u u' ⟨hx, hy⟩ hu
      obtain ⟨hx', hy'⟩ := execWith_keeps_xy hu
      exact ⟨hx'.trans hx, hy'.trans hy⟩
    obtain ⟨t', ht', hxy⟩ := executeLoopWith_keeps (s := { s with budget := b }) hkeeps b.toNat ⟨rfl, rfl⟩
    cases ht'.symm.trans h
    exact hxy

/-- No instruction reads Y. -/
theorem exec_setY {i : Instr} {s t : State} (h : exec i s = .next t) (y' : Byte) :
    exec i { s with y := y' } = .next { t with y := y' } := by
  rcases exec_next_cases h with
    ⟨v, rfl, rfl⟩ | ⟨zp, rfl, rfl⟩ | ⟨zp, rfl, rfl⟩ | ⟨target, rfl, rfl⟩ | ⟨op, rfl, rfl⟩
  · exact execLdaImm_eq v _
  · exact execLdaZp_eq zp _
  · exact execLdaZpX_eq zp _
  · exact execJsrAbs_eq target _
  · exact execUnknown_eq op _

/-- No instruction but the zero-page,X load reads X. -/
theorem exec_setX {i : Instr} {s t : State} (h : exec i s = .next t) (x' : Byte) (hi : ∀ zp, i ≠ .ldaZpX zp) :
    exec i { s with x := x' } = .next { t with x := x' } := by
  rcases exec_next_cases h with
    ⟨v, rfl, rfl⟩ | ⟨zp, rfl, rfl⟩ | ⟨zp, rfl, -⟩ | ⟨target, rfl, rfl⟩ | ⟨op, rfl, rfl⟩
  · exact execLdaImm_eq v _
  · exact execLdaZp_eq zp _
  · exact absurd rfl (hi zp)
  · exact execJsrAbs_eq target _
  · exact execUnknown_eq op _

/-- Settles O29: reset by its field lemmas, the host and the instructions by the lemmas above. -/
theorem indexRegistersAreWrittenByResetOnly : Obligations.IndexRegistersAreWrittenByResetOnly := by
  refine ⟨fun s => ⟨hostReset_x s, hostReset_y s⟩, fun _ _ _ => hostOp_keeps_xy, fun i s t h => ?_⟩
  obtain ⟨hx, hy⟩ := execWith_keeps_xy ((exec_eq_execWith i s).symm.trans h)
  exact ⟨hx, hy, exec_setY h, exec_setX h⟩

/-! ### P -/

/-- An instruction that is no load keeps all of P. -/
theorem exec_p_of_not_isLoad {i : Instr} {s t : State} (h : exec i s = .next t) (hi : isLoad i = false) :
    t.p = s.p := by
  rcases exec_next_cases h with
    ⟨_, rfl, -⟩ | ⟨_, rfl, -⟩ | ⟨_, rfl, -⟩ | ⟨_, -, rfl⟩ | ⟨_, -, rfl⟩
  · cases hi
  · cases hi
  · cases hi
  · rfl
  · rfl

/-- No instruction writes a reserved bit of P: a load's flag update keeps it, and the others keep all of P. -/
theorem exec_keeps_reserved {i : Instr} {s t : State} (h : exec i s = .next t) {k : Fin 8}
    (hk : isReservedBit k = true) : t.p.getLsbD k = s.p.getLsbD k := by
  cases hi : isLoad i with
  | true => rw [exec_p_of_isLoad h hi, setZN_p]; exact updateZN_reserved t.a s.p hk
  | false => rw [exec_p_of_not_isLoad h hi]

/-- No instruction reads P into anything but P. -/
theorem exec_setP {i : Instr} {s t : State} (h : exec i s = .next t) (p' : Byte) :
    ∃ q : Byte, exec i { s with p := p' } = .next { t with p := q } := by
  rcases exec_next_cases h with
    ⟨v, rfl, rfl⟩ | ⟨zp, rfl, rfl⟩ | ⟨zp, rfl, rfl⟩ | ⟨target, rfl, rfl⟩ | ⟨op, rfl, rfl⟩
  · exact ⟨_, execLdaImm_eq v _⟩
  · exact ⟨_, execLdaZp_eq zp _⟩
  · exact ⟨_, execLdaZpX_eq zp _⟩
  · exact ⟨_, execJsrAbs_eq target _⟩
  · exact ⟨_, execUnknown_eq op _⟩

/-- Settles O30, each clause by its lemma above. -/
theorem flagsAreWrittenByLoadsAndNeverRead : Obligations.FlagsAreWrittenByLoadsAndNeverRead := fun _ _ _ h =>
  ⟨exec_p_of_not_isLoad h, fun _ => exec_keeps_reserved h, exec_setP h⟩

end Sys2Proof.Machine

/-! The execute loop (spec 40_engine.md R70, R73, R75): its `while` equations and the induction that follows them, what a
list of instructions run one after another does, and the proofs of O35 to O41 and O50. -/

namespace Sys2Proof.Machine

/-! ### The loop as a `while` loop -/

section
variable {c : Params} {s t : State}

/-- Where the budget is used up the loop stops, whatever its fuel. -/
theorem executeLoopWith_of_nonpos (fuel : Nat) (hb : s.budget ≤ 0) :
    executeLoopWith c fuel s = .next s ∧ executedLoopWith c fuel s = [] := by
  cases fuel with
  | zero => exact ⟨rfl, rfl⟩
  | succ fuel => simp [executeLoopWith, executedLoopWith, not_lt.mpr hb]

/-- Every step takes at least one unit. -/
theorem stepWith_budget_lt (h : stepWith c s = .next t) : t.budget < s.budget := by
  have hcost := (cost_bounds (fetchInstrWith c.opcodes s)).1
  rw [stepWith_budget h]
  omega

/-- As much fuel as there is budget is enough: more fuel changes nothing. -/
theorem executeLoopWith_fuel_irrelevant {m n : Nat} (hm : s.budget.toNat ≤ m) (hn : s.budget.toNat ≤ n) :
    executeLoopWith c m s = executeLoopWith c n s ∧ executedLoopWith c m s = executedLoopWith c n s := by
  induction m generalizing s n with
  | zero =>
    have hb : s.budget ≤ 0 := by omega
    simp [executeLoopWith_of_nonpos _ hb]
  | succ m ih =>
    by_cases hb : 0 < s.budget
    · obtain ⟨t, ht⟩ := stepWith_total c s
      have hlt := stepWith_budget_lt ht
      obtain ⟨n, rfl⟩ : ∃ k, n = k + 1 := ⟨n - 1, by omega⟩
      obtain ⟨hm, hm'⟩ := executeLoopWith_succ m hb ht
      obtain ⟨hn, hn'⟩ := executeLoopWith_succ n hb ht
      obtain ⟨hrun, hlist⟩ := ih (s := t) (n := n) (by omega) (by omega)
      exact ⟨by rw [hm, hn, hrun], by rw [hm', hn', hlist]⟩
    · simp [executeLoopWith_of_nonpos _ (not_lt.mp hb)]

/-- The `while` loop where the budget is used up. -/
theorem runBudgetWith_of_nonpos (hb : s.budget ≤ 0) :
    runBudgetWith c s = .next s ∧ executedWith c s.budget s = [] :=
  executeLoopWith_of_nonpos s.budget.toNat hb

/-- The `while` loop where there is budget left. -/
theorem runBudgetWith_of_pos (hb : 0 < s.budget) (h : stepWith c s = .next t) :
    runBudgetWith c s = runBudgetWith c t ∧
    executedWith c s.budget s = fetchInstrWith c.opcodes s :: executedWith c t.budget t := by
  have hlt := stepWith_budget_lt h
  obtain ⟨fuel, hfuel⟩ : ∃ k, s.budget.toNat = k + 1 := ⟨s.budget.toNat - 1, by omega⟩
  obtain ⟨hrun, hlist⟩ := executeLoopWith_succ fuel hb h
  obtain ⟨hrun', hlist'⟩ :=
    executeLoopWith_fuel_irrelevant (c := c) (s := t) (m := fuel) (n := t.budget.toNat) (by omega) le_rfl
  rw [runBudgetWith, executedWith, hfuel]
  exact ⟨hrun.trans hrun', hlist.trans (congrArg _ hlist')⟩

/-- Induction along the `while` loop: from the states where it stops, back through its rounds. -/
theorem runBudgetWith_induction {P : State → Prop} (stop : ∀ s, s.budget ≤ 0 → P s)
    (round : ∀ s t, 0 < s.budget → stepWith c s = .next t → P t → P s) (s : State) : P s := by
  induction hn : s.budget.toNat using Nat.strong_induction_on generalizing s with
  | h n ih =>
    by_cases hb : 0 < s.budget
    · obtain ⟨t, ht⟩ := stepWith_total c s
      have hlt := stepWith_budget_lt ht
      exact round s t hb ht (ih t.budget.toNat (by omega) t rfl)
    · exact stop s (not_lt.mp hb)

/-! ### Lists of instructions run one after another -/

/-- A run of a list that is not empty is its first instruction and then the run of the others. -/
theorem runInstrsWith_cons {i : Instr} {rest : List Instr} (h : runInstrsWith c (i :: rest) s = .next t) :
    ∃ u, execWith c i s = .next u ∧ runInstrsWith c rest u = .next t := by
  obtain ⟨u, hu⟩ := execWith_total c i s
  rw [runInstrsWith, hu] at h
  exact ⟨u, hu, h⟩

/-- Whatever its operand and the state, an instruction takes its cost off the budget, at every choice of the parameters. -/
theorem execWith_budget {i : Instr} (h : execWith c i s = .next t) : t.budget = s.budget - cost i := by
  rcases execWith_next_cases h with
    ⟨_, rfl, rfl⟩ | ⟨_, rfl, rfl⟩ | ⟨_, rfl, rfl⟩ | ⟨_, rfl, rfl⟩ | ⟨_, rfl, rfl⟩
  · rfl
  · rfl
  · rfl
  · rfl
  · rfl

/-- A run takes the sum of the costs off the budget. -/
theorem runInstrsWith_budget {is : List Instr} (h : runInstrsWith c is s = .next t) :
    t.budget = s.budget - totalCost is := by
  induction is generalizing s with
  | nil => cases h; exact (sub_zero _).symm
  | cons i rest ih =>
    obtain ⟨u, hu, hrest⟩ := runInstrsWith_cons h
    rw [ih hrest, execWith_budget hu, totalCost, sub_sub]

theorem jumpCount_cons (i : Instr) (rest : List Instr) : jumpCount (i :: rest) = jumpCount [i] + jumpCount rest := by
  cases i with
  | jsrAbs target => exact Nat.add_comm _ _
  | ldaImm _ | ldaZp _ | ldaZpX _ | unknown _ => exact (Nat.zero_add _).symm

/-- An instruction moves SP up by 2 if it is a JSR and not at all otherwise. -/
theorem execWith_sp {i : Instr} (h : execWith c i s = .next t) :
    t.sp = s.sp + BitVec.ofNat 16 (2 * jumpCount [i]) := by
  rcases execWith_next_cases h with
    ⟨_, rfl, rfl⟩ | ⟨_, rfl, rfl⟩ | ⟨_, rfl, rfl⟩ | ⟨_, rfl, rfl⟩ | ⟨_, rfl, rfl⟩
  · exact (BitVec.add_zero _).symm
  · exact (BitVec.add_zero _).symm
  · exact (BitVec.add_zero _).symm
  · rfl
  · exact (BitVec.add_zero _).symm

/-- A run moves SP up by 2 for each JSR in the list. -/
theorem runInstrsWith_sp {is : List Instr} (h : runInstrsWith c is s = .next t) :
    t.sp = s.sp + BitVec.ofNat 16 (2 * jumpCount is) := by
  induction is generalizing s with
  | nil => cases h; exact (BitVec.add_zero _).symm
  | cons i rest ih =>
    obtain ⟨u, hu, hrest⟩ := runInstrsWith_cons h
    rw [ih hrest, execWith_sp hu, jumpCount_cons i rest, Nat.mul_add, BitVec.ofNat_add, BitVec.add_assoc]

/-- An instruction appends to DIAG, and nothing exactly if it is no unknown opcode. -/
theorem execWith_diag {i : Instr} (h : execWith c i s = .next t) :
    ∃ new, t.diag = s.diag ++ new ∧ (new = [] ↔ ∀ op, i ≠ .unknown op) := by
  by_cases hi : ∀ op, i ≠ .unknown op
  · exact ⟨[], by rw [execWith_diag_of_ne_unknown h hi, List.append_nil], by simpa using hi⟩
  · obtain ⟨op, rfl⟩ : ∃ op, i = .unknown op := by simpa using hi
    obtain ⟨_, hu, hreport⟩ := execWith_unknown_effect c op s
    cases hu.symm.trans h
    exact ⟨_, hreport.diag_appended, by simp⟩

/-- A run appends to DIAG, and nothing exactly if the list holds no unknown opcode. -/
theorem runInstrsWith_diag {is : List Instr} (h : runInstrsWith c is s = .next t) :
    ∃ new, t.diag = s.diag ++ new ∧ (new = [] ↔ ∀ op, Instr.unknown op ∉ is) := by
  induction is generalizing s with
  | nil => cases h; exact ⟨[], (List.append_nil _).symm, by simp⟩
  | cons i rest ih =>
    obtain ⟨u, hu, hrest⟩ := runInstrsWith_cons h
    obtain ⟨first, hfirst, hfirst'⟩ := execWith_diag hu
    obtain ⟨later, hlater, hlater'⟩ := ih hrest
    refine ⟨first ++ later, by rw [hlater, hfirst, List.append_assoc], ?_⟩
    simp only [List.append_eq_nil_iff, hfirst', hlater', List.mem_cons, not_or, forall_and, ne_comm]

end

/-! ### What a run of the loop does -/

/-- The loop ends with the budget used up, and the last instruction overruns it by at most 5. -/
theorem runBudgetWith_ends (c : Params) (s : State) :
    ∃ t, runBudgetWith c s = .next t ∧ t.budget ≤ 0 ∧ (0 < s.budget → -5 ≤ t.budget) := by
  induction s using runBudgetWith_induction (c := c) with
  | stop s hb => exact ⟨s, (runBudgetWith_of_nonpos hb).1, hb, fun hpos => absurd hpos (not_lt.mpr hb)⟩
  | round s t hb ht ih =>
    rw [(runBudgetWith_of_pos hb ht).1]
    by_cases hpos : 0 < t.budget
    · obtain ⟨u, hu, hend, hover⟩ := ih
      exact ⟨u, hu, hend, fun _ => hover hpos⟩
    · have hcost := (cost_bounds (fetchInstrWith c.opcodes s)).2
      have hbudget := stepWith_budget ht
      exact ⟨t, (runBudgetWith_of_nonpos (not_lt.mp hpos)).1, not_lt.mp hpos, fun _ => by omega⟩

/-- The loop runs the executed instructions one after another. -/
theorem runInstrsWith_executed (c : Params) (s : State) :
    runInstrsWith c (executedWith c s.budget s) s = runBudgetWith c s := by
  induction s using runBudgetWith_induction (c := c) with
  | stop s hb =>
    obtain ⟨hrun, hlist⟩ := runBudgetWith_of_nonpos (c := c) hb
    rw [hrun, hlist, runInstrsWith]
  | round s t hb ht ih =>
    obtain ⟨hrun, hlist⟩ := runBudgetWith_of_pos hb ht
    have hexec : execWith c (fetchInstrWith c.opcodes s) s = .next t := ht
    rw [hrun, hlist, runInstrsWith, hexec]
    exact ih

/-- No shorter list of executed instructions uses up the budget. -/
theorem totalCost_take_executed_lt (c : Params) (s : State) :
    ∀ k < (executedWith c s.budget s).length, totalCost ((executedWith c s.budget s).take k) < s.budget := by
  induction s using runBudgetWith_induction (c := c) with
  | stop s hb => simp [(runBudgetWith_of_nonpos (c := c) hb).2]
  | round s t hb ht ih =>
    rw [(runBudgetWith_of_pos hb ht).2]
    intro k hk
    cases k with
    | zero => exact hb
    | succ k =>
      have hlater := ih k (Nat.lt_of_succ_lt_succ hk)
      have hbudget := stepWith_budget ht
      rw [List.take_succ_cons, totalCost]
      omega

/-! ### Execute -/

/-- Settles O50: `Execute(b)` is the loop from a state of budget `b`, with the lemmas above. -/
theorem executeAccountsForEveryUnitForAnyParameters : Obligations.ExecuteAccountsForEveryUnitForAnyParameters := by
  intro c b s
  obtain ⟨t, ht, hend, hover⟩ := runBudgetWith_ends c { s with budget := b }
  have hlist := (runInstrsWith_executed c { s with budget := b }).trans ht
  exact ⟨t, ht, hlist, runInstrsWith_budget hlist, fun hb => ⟨hover hb, hend⟩,
    totalCost_take_executed_lt c { s with budget := b }⟩

/-- Settles O38: O50 at the machine's parameters. -/
theorem executeAccountsForEveryUnit : Obligations.ExecuteAccountsForEveryUnit :=
  executeAccountsForEveryUnitForAnyParameters params

/-- Settles O35: the loop stops at once. -/
theorem executeWithNoBudgetRunsNothing : Obligations.ExecuteWithNoBudgetRunsNothing := fun b s hb =>
  runBudgetWith_of_nonpos (s := { s with budget := b }) hb

/-- Settles O36: one round, after which a budget of 1 leaves no fuel. -/
theorem executeOneIsASingleStep : Obligations.ExecuteOneIsASingleStep := by
  intro s
  obtain ⟨t, ht⟩ := stepWith_total params { s with budget := 1 }
  obtain ⟨hrun, hlist⟩ := executeLoopWith_succ 0 Int.one_pos ht
  exact ⟨by rw [step_eq_stepWith, ht]; exact hrun, hlist⟩

/-- Settles O37, by the `while` equations. -/
theorem executeIsTheWhileLoop : Obligations.ExecuteIsTheWhileLoop := by
  refine ⟨fun s hb => (runBudgetWith_of_nonpos hb).1, fun s hb => ?_⟩
  obtain ⟨t, ht⟩ := stepWith_total params s
  exact ⟨t, (step_eq_stepWith s).trans ht, (runBudgetWith_of_pos hb ht).1⟩

/-- Settles O40: `Execute` runs the executed instructions, and each JSR among them moves SP up by 2. -/
theorem stackPointerCountsJumps : Obligations.StackPointerCountsJumps := by
  intro b s
  obtain ⟨t, ht, hlist, -⟩ := executeAccountsForEveryUnit b s
  exact ⟨t, ht, runInstrsWith_sp (s := { s with budget := b }) hlist⟩

/-- DIAG is unchanged exactly when no unknown opcode was executed. -/
theorem execute_diag_eq_iff {b : Int} {s t : State} (h : execute b s = .next t) :
    t.diag = s.diag ↔ ∀ op, Instr.unknown op ∉ executed b s := by
  obtain ⟨new, hdiag, hnew⟩ := runInstrsWith_diag ((runInstrsWith_executed params { s with budget := b }).trans h)
  rw [hdiag]
  exact List.append_right_eq_self.trans hnew

/-- Settles O41: DIAG by the lemma above, the costs by what `Execute` takes off the budget. -/
theorem cleanRunsExecuteKnownOpcodesOnly : Obligations.CleanRunsExecuteKnownOpcodesOnly := by
  refine ⟨fun b s t => execute_diag_eq_iff, fun b s t ⟨hrun, hdiag, hbudget⟩ => ⟨(execute_diag_eq_iff hrun).mp hdiag, ?_⟩⟩
  obtain ⟨t', ht', -, htotal, -⟩ := executeAccountsForEveryUnit b s
  cases ht'.symm.trans hrun
  omega

/-! ### More budget (R75) -/

/-- An instruction does the same on a budget that is larger by `d` and leaves one that is larger by `d`. -/
theorem execWith_addBudget {c : Params} {i : Instr} {s t : State} (h : execWith c i s = .next t) (d : Int) :
    execWith c i { s with budget := s.budget + d } = .next { t with budget := t.budget + d } := by
  have hswap (n : Int) : s.budget - n + d = s.budget + d - n := sub_add_eq_add_sub _ _ _
  rcases execWith_next_cases h with
    ⟨v, rfl, rfl⟩ | ⟨zp, rfl, rfl⟩ | ⟨zp, rfl, rfl⟩ | ⟨target, rfl, rfl⟩ | ⟨op, rfl, rfl⟩ <;>
    simp only [hswap]
  · exact execLdaImmWith_eq _ v _
  · exact execLdaZpWith_eq _ zp _
  · exact execLdaZpXWith_eq _ zp _
  · exact execJsrAbs_eq target _
  · exact execUnknown_eq op _

/-- A step does not read the budget. -/
theorem stepWith_addBudget {c : Params} {s t : State} (h : stepWith c s = .next t) (d : Int) :
    stepWith c { s with budget := s.budget + d } = .next { t with budget := t.budget + d } :=
  execWith_addBudget h d

/-- A run that uses up its budget exactly is the beginning of the run on a budget that is larger by `d`. -/
theorem runBudgetWith_addBudget (c : Params) {d : Int} (hd : 0 ≤ d) (s : State) :
    ∀ t, runBudgetWith c s = .next t → t.budget = 0 →
      runBudgetWith c { s with budget := s.budget + d } = runBudgetWith c { t with budget := d } := by
  induction s using runBudgetWith_induction (c := c) with
  | stop s hb =>
    intro t ht hzero
    cases (runBudgetWith_of_nonpos hb).1.symm.trans ht
    rw [hzero, zero_add]
  | round s u hb hu ih =>
    intro t ht hzero
    rw [(runBudgetWith_of_pos (s := { s with budget := s.budget + d }) (by show 0 < s.budget + d; omega)
      (stepWith_addBudget hu d)).1]
    exact ih t ((runBudgetWith_of_pos hb hu).1.symm.trans ht) hzero

/-- Settles O39: the first call is the beginning of the one call, which goes on with what is left of its budget. -/
theorem splitExecuteEqualsOneExecute : Obligations.SplitExecuteEqualsOneExecute := fun b₁ _ s t hb₂ h hzero =>
  runBudgetWith_addBudget params hb₂ { s with budget := b₁ } t h hzero

end Sys2Proof.Machine
